-- ==== Sys2Proof/Word.lean ====
section
/-! DEFINITION. The word types of petrel-core (spec 00_scope.md R10, R11). Every value is unsigned; bit 0 is the least
significant bit; a byte string is a list whose head is byte 0. -/

namespace Sys2Proof

/-- One 8-bit byte, the unit of all message data (R11). -/
abbrev Byte := BitVec 8

/-- A 32-bit host word: register contents, command words, ERRINFO (R68). -/
abbrev Word := BitVec 32

/-- A 64-bit storage cell of the accumulator (R25). -/
abbrev Cell64 := BitVec 64

/-- `zeros n` is n zero bytes (R11). -/
def zeros (n : Nat) : List Byte := List.replicate n 0#8

end Sys2Proof
end

