-- ==== Sys2Proof/Syntax.lean ====
section
/-! DEFINITION. The host commands of petrel-core (spec 47_commands.md, opcode_table.json): one constructor per row. The
operand fields are the raw fields of the command word (30_encoding.md R91), so a term may be ill formed (WellFormed.lean). -/

namespace Sys2Proof

/-- The six commands a host writes to CMD (R92). -/
inductive Instr where
  /-- NOP (R246) -/
  | nop
  /-- INIT alg (R241): `alg` is the field cw[6:4] (R93) -/
  | init (alg : BitVec 3)
  /-- FEED nb (R242): `nb` is the field cw[10:8] (R94) -/
  | feed (nb : BitVec 3)
  /-- FINALIZE (R243) -/
  | finalize
  /-- FINALIZE_RESET (R244) -/
  | finalizeReset
  /-- CLRERR (R245) -/
  | clrerr
deriving DecidableEq, Repr

end Sys2Proof
end

