-- ==== Sys2Proof/WellFormed.lean ====
section
/-! DEFINITION. Which command terms the spec calls legal (30_encoding.md R93, R94, R96): one named check per operand. -/

namespace Sys2Proof

/-- INIT accepts 0..6; alg = 7 is illegal (R93). -/
def algFieldOk (alg : BitVec 3) : Bool := decide (alg.toNat ≤ 6)

/-- FEED accepts 0..4; nb in 5..7 is illegal (R94). -/
def nbFieldOk (nb : BitVec 3) : Bool := decide (nb.toNat ≤ 4)

/-- The commands whose operands the encoding admits as legal (R96). -/
def Instr.wellFormed : Instr → Bool
  | .nop => true
  | .init alg => algFieldOk alg
  | .feed nb => nbFieldOk nb
  | .finalize => true
  | .finalizeReset => true
  | .clrerr => true

end Sys2Proof
end

