-- ==== Sys2Proof/Decode.lean ====
section
/-! DEFINITION. The command word: decoder and encoder (spec 30_encoding.md R90 to R99). Every CMD write is one 32-bit word and
one command (R90, R105); decoding is total (R99) and every rejected word is rejected by a name. -/

namespace Sys2Proof

/-- Why a word is not a command: the ways `Legal` is false (R96, 60_exceptions.md R271). All of them are the one outcome
ILLEGAL at the host port. -/
inductive IllegalWord where
  /-- cw[7] or one of cw[31:11] is 1 -/
  | reservedBit
  /-- OP is 0x6 .. 0xF -/
  | badOpcode
  /-- INIT with ALG = 7 -/
  | badAlg
  /-- ALG is not 0 in a command other than INIT -/
  | strayAlg
  /-- FEED with NB in 5..7 -/
  | badNb
  /-- NB is not 0 in a command other than FEED -/
  | strayNb
deriving DecidableEq, Repr

/-- OP = cw[3:0] (R91). -/
def opField (cw : Word) : BitVec 4 := cw.extractLsb' 0 4

/-- ALG = cw[6:4] (R91, R93). -/
def algField (cw : Word) : BitVec 3 := cw.extractLsb' 4 3

/-- r = cw[7] (R91). -/
def resBit (cw : Word) : BitVec 1 := cw.extractLsb' 7 1

/-- NB = cw[10:8] (R91, R94). -/
def nbField (cw : Word) : BitVec 3 := cw.extractLsb' 8 3

/-- RSV = cw[31:11] (R91). -/
def rsvField (cw : Word) : BitVec 21 := cw.extractLsb' 11 21

/-- `Legal(cw)` as R96 writes it. -/
def legal (cw : Word) : Bool :=
  if rsvField cw ≠ 0 ∨ resBit cw ≠ 0 then false
  else match (opField cw).toNat with
    | 0 | 3 | 4 | 5 => decide (algField cw = 0 ∧ nbField cw = 0)
    | 1 => decide ((algField cw).toNat ≤ 6 ∧ nbField cw = 0)
    | 2 => decide (algField cw = 0 ∧ (nbField cw).toNat ≤ 4)
    | _ => false

/-- A command with no operand: ALG and NB must both be 0 (R91, R95). -/
def plainCommand (cw : Word) (i : Instr) : Except IllegalWord Instr :=
  if algField cw ≠ 0 then .error .strayAlg
  else if nbField cw ≠ 0 then .error .strayNb
  else .ok i

/-- `Decode(cw)` (R92, R99), total on every 32-bit word. -/
def decode (cw : Word) : Except IllegalWord Instr :=
  if rsvField cw ≠ 0 ∨ resBit cw ≠ 0 then .error .reservedBit
  else match (opField cw).toNat with
    | 0 => plainCommand cw .nop
    | 1 =>
      if algFieldOk (algField cw) = false then .error .badAlg
      else if nbField cw ≠ 0 then .error .strayNb
      else .ok (.init (algField cw))
    | 2 =>
      if algField cw ≠ 0 then .error .strayAlg
      else if nbFieldOk (nbField cw) = false then .error .badNb
      else .ok (.feed (nbField cw))
    | 3 => plainCommand cw .finalize
    | 4 => plainCommand cw .finalizeReset
    | 5 => plainCommand cw .clrerr
    | _ => .error .badOpcode

/-- The word of a command (R98, R100): OP in 3:0, ALG in 6:4, NB in 10:8, every other bit 0. -/
def encode : Instr → Word
  | .nop => 0x00000000#32
  | .init alg => 0x00000001#32 ||| (alg.setWidth 32 <<< 4)
  | .feed nb => 0x00000002#32 ||| (nb.setWidth 32 <<< 8)
  | .finalize => 0x00000003#32
  | .finalizeReset => 0x00000004#32
  | .clrerr => 0x00000005#32

/-- The instruction the decoder reads from a row's word, its bits numbered as spec/opcode_table.json numbers them. A command
is one 32-bit word (R90), so a number that needs more bits is no command. -/
def decodeTableWord (nbits w : Nat) : Option Instr :=
  let bits := w % 2 ^ nbits
  if bits < 2 ^ 32 then
    match decode (BitVec.ofNat 32 bits) with
    | .ok i => some i
    | .error _ => none
  else none

end Sys2Proof
end

