-- ==== Sys2Proof/Config.lean ====
section
/-! DEFINITION. What one petrel-core fixes and what the spec leaves open (00_scope.md R8, R9). The algorithm names are here;
the parameters each one selects stand in Machine/Params.lean, and the IV and K tables in Machine/Sha1.lean, Sha256.lean and
Sha512.lean with the FIPS 180-4 default values the spec gives. -/

namespace Sys2Proof

/-- The seven algorithms (R2, R8). ALG is a 3-bit element whose value is never 7 (R22), so it has seven values here. -/
inductive Alg where
  | sha1
  | sha256
  | sha224
  | sha512
  | sha384
  | sha512_224
  | sha512_256
deriving DecidableEq, Repr

/-- The rows of the latency table of 70_reset_and_hazards.md R306. -/
inductive LatencyClass where
  /-- a read of any offset -/
  | read
  /-- a write of DATA, or a write that is refused at the bus -/
  | plainWrite
  /-- CMD: NOP, CLRERR, INIT, or any refused command -/
  | plainCommand
  /-- CMD: a FEED that runs no Handle -/
  | feedNoBlock
  /-- CMD: a FEED that runs one Handle -/
  | feedBlock
  /-- CMD: a FINALIZE or FINALIZE_RESET that runs `blocks` Handles -/
  | finalize (blocks : Nat)
deriving DecidableEq, Repr

namespace Config

/-- The register window is 256 bytes (R9, R60). -/
def windowBytes : Nat := 256

/-- The hardware counter is 128 bits wide (R9). -/
def countBits : Nat := 128

/-- The hardware block buffer is 128 bytes (R9). -/
def bufBytes : Nat := 128

/-- The digest bank is 64 bytes (R9). -/
def digestBytes : Nat := 64

/-- ENGINE_BASE, the platform address of the window: OPEN in the spec (R9, R60, D5), so it has no value here. -/
opaque engineBase : Nat

/-- T_cmd(c), the latency of transaction c: OPEN in the spec (R9, R306, D28). A transaction is given here by the port's signals
we, off, wdata and wstrb (20_memory.md R63), its row of R306 and the algorithm, so no two transactions that differ in any of them
share a latency (log entry 5). No rule depends on it (R306) and nothing in the transaction-level machine reads it. -/
opaque tCmd (we : Bool) (off : BitVec 8) (wdata : Word) (wstrb : BitVec 4) (row : LatencyClass) (alg : Alg) : Nat

/-- T_round, the cycles one Handle takes: OPEN in the spec (R9, D28). No rule depends on it (R306). -/
opaque tRound : Alg → Nat

/-- The strobes the platform drives for a store of n < 4 bytes at an address: any but all four, which is all the spec says of
them (20_memory.md R68); where the bytes lie in the word is the platform's convention (R69, U22). Open; log entry 17. -/
opaque narrowStrobes (addr n : Nat) : Fin 15

/-- Whether the platform presents an access of n < 4 bytes at the offset of the word that holds its first byte (true) or at the
first byte's own offset (false): the spec does not say. Open; log entry 17. -/
opaque narrowPresentsWord : Bool

end Config

end Sys2Proof
end

