-- ==== Sys2Proof/Machine/Params.lean ====
section
/-! DEFINITION. The parameters each algorithm selects (spec 00_scope.md R8): ALG codes, B, W, F, w, N, R and OUT. -/

namespace Sys2Proof

/-- The three shared implementations (42_block_consumer.md R147): which schedule and step an algorithm uses. -/
def Alg.isSha1 : Alg → Bool
  | .sha1 => true
  | _ => false

/-- The algorithms of 64-byte blocks and 32-bit words: SHA-1, SHA-256 and SHA-224 (R8). -/
def Alg.narrow : Alg → Bool
  | .sha1 | .sha256 | .sha224 => true
  | .sha512 | .sha384 | .sha512_224 | .sha512_256 => false

/-- The ALG code (R8). -/
def Alg.code : Alg → BitVec 3
  | .sha1 => 0
  | .sha256 => 1
  | .sha224 => 2
  | .sha512 => 3
  | .sha384 => 4
  | .sha512_224 => 5
  | .sha512_256 => 6

/-- The algorithm of a code; code 7 is reserved (R8). -/
def Alg.ofCode (c : BitVec 3) : Option Alg :=
  match c.toNat with
  | 0 => some .sha1
  | 1 => some .sha256
  | 2 => some .sha224
  | 3 => some .sha512
  | 4 => some .sha384
  | 5 => some .sha512_224
  | 6 => some .sha512_256
  | _ => none

/-- B, the block width in bytes (R8). -/
def Alg.blockBytes (a : Alg) : Nat := if a.narrow then 64 else 128

/-- W, the counter width in bits (R8). -/
def Alg.counterBits (a : Alg) : Nat := if a.narrow then 64 else 128

/-- F, the footer width in bytes (R8). -/
def Alg.footerBytes (a : Alg) : Nat := if a.narrow then 8 else 16

/-- w, the word width in bits (R8). -/
def Alg.wordBits (a : Alg) : Nat := if a.narrow then 32 else 64

/-- N, the number of words of the accumulator (R8). -/
def Alg.stateWords (a : Alg) : Nat := if a.isSha1 then 5 else 8

/-- R, the number of rounds (R8). -/
def Alg.rounds : Alg → Nat
  | .sha1 => 80
  | .sha256 | .sha224 => 64
  | .sha512 | .sha384 | .sha512_224 | .sha512_256 => 80

/-- OUT, the digest width in bytes (R8). -/
def Alg.outBytes : Alg → Nat
  | .sha1 => 20
  | .sha256 => 32
  | .sha224 => 28
  | .sha512 => 64
  | .sha384 => 48
  | .sha512_224 => 28
  | .sha512_256 => 32

end Sys2Proof
end

