-- ==== Sys2Proof/Machine/State.lean ====
section
/-! DEFINITION. The state of one petrel-core at the transaction level (spec 10_state.md; 20_memory.md R63): every element of
10_state.md's summary table, the port's ack and rdata, and the host transactions still to be performed. -/

namespace Sys2Proof.Machine

/-- PHASE (R20). Codes 3..6 are never taken, so the 3-bit element has four values; `Phase.code` gives its encoding. -/
inductive Phase where
  | uninit
  | absorb
  | done
  | fault
deriving DecidableEq, Repr

/-- Eight 64-bit cells: the storage of the accumulator H (R25) and of the working state S, which is a bank of the same shape
(R32, R41). The names are those of R32: cell `a` is word 0. An algorithm uses the low w bits of the first N cells. -/
structure Words where
  a : Cell64
  b : Cell64
  c : Cell64
  d : Cell64
  e : Cell64
  f : Cell64
  g : Cell64
  h : Cell64
deriving DecidableEq, Repr

/-- A round input (W_t, K_t, sel_t) (R33); `sel` is present for SHA-1 only (44_sha1.md R184). -/
structure RoundInput where
  w : Cell64
  k : Cell64
  sel : Option (Fin 4)
deriving DecidableEq, Repr

/-- The block consumer's transient state: the working state S (R32), the schedule WS and the round index t (R33). Between
transactions it is idle (R21, R34) and S, WS and t hold no value, so `idle` has none. -/
inductive Consumer where
  | idle
  | busy (s : Words) (ws : List RoundInput) (t : Nat)
deriving DecidableEq, Repr

/-- PAD, the padder's state (R31). -/
inductive Pad where
  | none
  | penultimateBlock (block : List Byte) (footer : List Byte)
  | finalBlock (block : List Byte)
  | done
deriving DecidableEq, Repr

/-- One host transaction at the port (20_memory.md R63): a read of `off`, or a write of `v` with byte strobes `strb`. -/
inductive Transaction where
  | read (off : BitVec 8)
  | write (off : BitVec 8) (v : Word) (strb : BitVec 4)
deriving DecidableEq, Repr

/-- What the outside does to the engine, one event a step: a transaction, or a reset edge with the transaction, if any, that
is outstanding when it comes (70_reset_and_hazards.md R300, R301). -/
inductive HostEvent where
  | txn (t : Transaction)
  | rst (outstanding : Option Transaction)
deriving DecidableEq, Repr

/-- The port's outputs ack and rdata (20_memory.md R63): ack = 0, ack = 1 for a write, or ack = 1 for a read with its data.
rdata is valid only while ack = 1 for a read; at other times it is don't-care (R302) and has no value here. -/
inductive PortOut where
  | noAck
  | ackWrite
  | ackRead (rdata : Word)
deriving DecidableEq, Repr

/-- Reasons the machine stops with a fault: none. Nobody raises one. The spec gives every host transaction an effect, and the
error FAULT (60_exceptions.md R280) is a phase the engine enters and stays readable in, so it is a next state. Safe: a type
with no value adds no behaviour. -/
inductive Fault where
deriving DecidableEq, Repr

/-- Reasons a step is refused. -/
inductive Refusal where
  /-- Raised by an arm of `exec` for an instruction that has no meaning yet; no arm raises it. Safe: the machine stops. -/
  | notModelled (mnemonic : String)
deriving DecidableEq, Repr

/-- The state of one engine, and of the host side of its port. -/
structure State where
  /-- PHASE (R20) -/
  phase : Phase
  /-- ALG (R22) -/
  alg : Alg
  /-- COUNT, the byte counter (R23) -/
  count : BitVec 128
  /-- BUF, the block buffer (R24) -/
  buf : Vector Byte 128
  /-- H, the accumulator (R25) -/
  acc : Words
  /-- DATA, the staging register (R26) -/
  data : Word
  /-- D, the digest bank (R27) -/
  digest : Vector Byte 64
  /-- DVALID (R28) -/
  dvalid : Bool
  /-- E_ILLEGAL, sticky (R29) -/
  eIllegal : Bool
  /-- E_STATE, sticky (R29) -/
  eState : Bool
  /-- E_ACCESS, sticky (R29) -/
  eAccess : Bool
  /-- LEN_OVF, sticky (R29) -/
  lenOvf : Bool
  /-- ECODE, the first error's code (R30) -/
  ecode : BitVec 4
  /-- ERRINFO, the first error's information word (R30) -/
  errinfo : Word
  /-- PAD (R31); NONE at every transaction boundary -/
  pad : Pad
  /-- S, WS and t (R32, R33); idle at every transaction boundary -/
  consumer : Consumer
  /-- ack and rdata (20_memory.md R63) -/
  out : PortOut
  /-- the host events still to come, the next one first (R63, R75); an input, not a part of the engine -/
  port : List HostEvent
deriving DecidableEq, Repr

/-- All words 0 (R25). -/
def Words.zero : Words := ⟨0, 0, 0, 0, 0, 0, 0, 0⟩

/-- The state right after a reset edge (70_reset_and_hazards.md R302). The spec leaves BUF unspecified: its zero bytes here
are a DESIGN CHOICE (log entry 1); no rule reads them. No host event is pending. -/
def State.reset : State where
  phase := .uninit
  alg := .sha1
  count := 0
  buf := Vector.replicate 128 0
  acc := Words.zero
  data := 0
  digest := Vector.replicate 64 0
  dvalid := false
  eIllegal := false
  eState := false
  eAccess := false
  lenOvf := false
  ecode := 0
  errinfo := 0
  pad := .none
  consumer := .idle
  out := .noAck
  port := []

end Sys2Proof.Machine
end

