-- ==== Sys2Proof/Machine/Flags.lean ====
section
/-! DEFINITION. Flags and codes (spec 10_state.md R20, R29, R30, R35, R42; 60_exceptions.md R275): the encoding of PHASE, the
error codes, the STATUS word, and the phases that accept each command (47_commands.md R248). -/

namespace Sys2Proof.Machine

/-- The 3-bit encoding of PHASE (R20). -/
def Phase.code : Phase → BitVec 3
  | .uninit => 0
  | .absorb => 1
  | .done => 2
  | .fault => 7

/-- The five error codes (R275). -/
inductive ErrorCode where
  | illegal
  | state
  | access
  | lenOvf
  | fault
deriving DecidableEq, Repr

/-- ECODE's value for each error (R275). -/
def ErrorCode.num : ErrorCode → BitVec 4
  | .illegal => 1
  | .state => 2
  | .access => 3
  | .lenOvf => 4
  | .fault => 5

/-- STATUS, a live view of the state (R35): reserved 31:16, ECODE 15:12, LEN_OVF 11, E_ACCESS 10, E_STATE 9, E_ILLEGAL 8,
reserved 7, ALG 6:4, DVALID 3, PHASE 2:0. -/
def statusWord (s : State) : Word :=
  0#16 ++ s.ecode ++ BitVec.ofBool s.lenOvf ++ BitVec.ofBool s.eAccess ++ BitVec.ofBool s.eState
    ++ BitVec.ofBool s.eIllegal ++ 0#1 ++ s.alg.code ++ BitVec.ofBool s.dvalid ++ s.phase.code

/-- `Allowed(c)`: the phases in which each command runs (R248). -/
def allowed (i : Instr) (p : Phase) : Bool :=
  match i with
  | .nop => true
  | .clrerr => true
  | .init _ => match p with
    | .fault => false
    | .uninit | .absorb | .done => true
  | .feed _ | .finalize | .finalizeReset => match p with
    | .absorb => true
    | .uninit | .done | .fault => false

end Sys2Proof.Machine
end

