-- ==== Sys2Proof/Machine/Ops.lean ====
section
/-! DEFINITION. The shared operations: recording an error and clearing it (spec 60_exceptions.md R276, R281), the counter
(40_counter.md), big-endian bytes and words (00_scope.md R10, R11; 20_memory.md R71), the block buffer and the accumulator's
storage (10_state.md R24, R25). -/

namespace Sys2Proof.Machine

/-! ### Errors -/

/-- `raise Error(code, info)` (R276): the code's sticky flag, or PHASE for FAULT; and ECODE and ERRINFO if no error is yet
recorded. It transfers no control and saves nothing else (R279). -/
def raiseError (code : ErrorCode) (info : Word) (s : State) : State :=
  { s with
    phase := if code = .fault then .fault else s.phase
    eIllegal := s.eIllegal || decide (code = .illegal)
    eState := s.eState || decide (code = .state)
    eAccess := s.eAccess || decide (code = .access)
    lenOvf := s.lenOvf || decide (code = .lenOvf)
    ecode := if s.ecode = 0 then code.num else s.ecode
    errinfo := if s.ecode = 0 then info else s.errinfo }

/-- `ClrErr()` (47_commands.md R245): the acknowledge of recorded errors (R281). PHASE is not changed. -/
def clearErrors (s : State) : State :=
  { s with eIllegal := false, eState := false, eAccess := false, lenOvf := false, ecode := 0, errinfo := 0 }

/-! ### Bytes and words -/

/-- `BE_n(x)`: the n-byte big-endian encoding of x mod 2^(8n) (R11). -/
def beBytes : Nat → Nat → List Byte
  | 0, _ => []
  | n + 1, x => BitVec.ofNat 8 (x / 256 ^ n) :: beBytes n x

/-- The big-endian number of a byte string, its first byte most significant (R11). -/
def beNat (bs : List Byte) : Nat := bs.foldl (fun acc b => acc * 256 + b.toNat) 0

/-- `BEW_w(s)` for the w/8 bytes of s (R11). -/
def beWord (w : Nat) (bs : List Byte) : BitVec w := BitVec.ofNat w (beNat bs)

/-- `ROTR^n_w(x)`, for 0 < n < w (R10). -/
def rotr {w : Nat} (n : Nat) (x : BitVec w) : BitVec w := (x >>> n) ||| (x <<< (w - n))

/-- `ROTL^n_w(x)` (R10). -/
def rotl {w : Nat} (n : Nat) (x : BitVec w) : BitVec w := rotr (w - n) x

/-- `SHR^n(x)` (R10). -/
def shr {w : Nat} (n : Nat) (x : BitVec w) : BitVec w := x >>> n

/-- Ch(x, y, z) (44_sha1.md R182, 45_sha256.md R203, 46_sha512.md R225). -/
def ch {w : Nat} (x y z : BitVec w) : BitVec w := (x &&& y) ^^^ (~~~x &&& z)

/-- Parity(x, y, z) (R182). -/
def parity {w : Nat} (x y z : BitVec w) : BitVec w := x ^^^ y ^^^ z

/-- Maj(x, y, z) (R182, R203, R225). -/
def maj {w : Nat} (x y z : BitVec w) : BitVec w := (x &&& y) ^^^ (x &&& z) ^^^ (y &&& z)

/-- The big-endian words of a block: word j is `BEW_w(block[j·w/8 .. (j+1)·w/8))` for j = 0..15 (20_memory.md R71,
42_block_consumer.md R141). -/
def blockWords (w : Nat) (block : List Byte) : List (BitVec w) :=
  (List.range 16).map fun j => beWord w ((block.drop (j * (w / 8))).take (w / 8))

/-- Append n more words to a schedule, each computed from the words before it. -/
def extendSchedule {w : Nat} (next : List (BitVec w) → BitVec w) : Nat → List (BitVec w) → List (BitVec w)
  | 0, ws => ws
  | n + 1, ws => extendSchedule next n (ws ++ [next ws])

/-! ### The counter -/

/-- `CounterZero()` (R110). -/
def counterZero (s : State) : State := { s with count := 0 }

/-- The test of R111, computed without wrap-around: COUNT + n ≥ 2^(W-3). -/
def lengthOverflows (n : Nat) (s : State) : Bool := decide (2 ^ (s.alg.counterBits - 3) ≤ s.count.toNat + n)

/-- `CounterAdd(n, cw)` (R111): the LEN_OVF warning, then COUNT <- (COUNT + n) mod 2^W. -/
def counterAdd (n : Nat) (cw : Word) (s : State) : State :=
  let warned := if lengthOverflows n s then raiseError .lenOvf cw s else s
  { warned with count := BitVec.ofNat 128 ((s.count.toNat + n) % 2 ^ s.alg.counterBits) }

/-- `CounterOffset()` (R112): COUNT mod B. -/
def counterOffset (s : State) : Nat := s.count.toNat % s.alg.blockBytes

/-- `CounterFooter()` (R113): BE_F(8·COUNT mod 2^(8F)), the bit length (90_conflicts.md C3). -/
def counterFooter (s : State) : List Byte :=
  beBytes s.alg.footerBytes (8 * s.count.toNat % 2 ^ (8 * s.alg.footerBytes))

/-! ### The block buffer -/

/-- `BUF[off .. off+len(d)) <- d`; bytes past the end of the buffer are dropped. -/
def writeBytes (buf : Vector Byte 128) : Nat → List Byte → Vector Byte 128
  | _, [] => buf
  | off, b :: bs => writeBytes (buf.setIfInBounds off b) (off + 1) bs

/-- `BUF[0 .. n)`. -/
def bufTake (n : Nat) (s : State) : List Byte := s.buf.toList.take n

/-- The tail: `BUF[0 .. COUNT mod B)` (R13, R24). -/
def tail (s : State) : List Byte := bufTake (counterOffset s) s

/-! ### The accumulator's storage -/

/-- The low w = 32 bits of a cell, which are all a 32-bit algorithm uses of it (R25). -/
def low32 (x : Cell64) : BitVec 32 := x.setWidth 32

/-- Write a 32-bit word into a cell. The high half is storage the algorithm does not use (R25): it is not written
(DESIGN CHOICE, log entry 2). -/
def putLow (old : Cell64) (v : BitVec 32) : Cell64 := old.extractLsb' 32 32 ++ v

/-- Write an algorithm's words into cells: w bits of each of the first N cells, and nothing else (R25, log entry 2). -/
def putWords (a : Alg) (old new : Words) : Words :=
  if a.narrow then
    { a := putLow old.a (low32 new.a), b := putLow old.b (low32 new.b), c := putLow old.c (low32 new.c)
      d := putLow old.d (low32 new.d), e := putLow old.e (low32 new.e)
      f := if a.isSha1 then old.f else putLow old.f (low32 new.f)
      g := if a.isSha1 then old.g else putLow old.g (low32 new.g)
      h := if a.isSha1 then old.h else putLow old.h (low32 new.h) }
  else new

/-- The architectural value of a bank of cells: the tuple of N w-bit words, each as a number (R25). -/
def liveWords (a : Alg) (x : Words) : List Nat :=
  ([x.a, x.b, x.c, x.d, x.e, x.f, x.g, x.h].take a.stateWords).map fun c => c.toNat % 2 ^ a.wordBits

end Sys2Proof.Machine
end

