-- ==== Sys2Proof/Machine/Operands.lean ====
section
/-! DEFINITION. The operand forms (spec 30_encoding.md R93 to R95; 20_memory.md R70): the algorithm operand of INIT and the
byte operand of FEED. No other command has an operand. -/

namespace Sys2Proof.Machine

/-- The byte lanes of DATA, lane 0 first: lane i is DATA[31-8i : 24-8i] (R40, R70). -/
def dataLanes (s : State) : List Byte :=
  [s.data.extractLsb' 24 8, s.data.extractLsb' 16 8, s.data.extractLsb' 8 8, s.data.extractLsb' 0 8]

/-- `Lanes(NB)`: the bytes FEED takes, lanes 0 .. NB-1 in that order (R70). -/
def lanes (nb : BitVec 3) (s : State) : List Byte := (dataLanes s).take nb.toNat

/-- INIT's operand: the algorithm of the code, none for the reserved code 7 (R93). -/
def algOperand (alg : BitVec 3) : Option Alg := Alg.ofCode alg

end Sys2Proof.Machine
end

