-- ==== Sys2Proof/Machine/Sha1.lean ====
section
/-! DEFINITION. SHA-1: constants, Boolean functions, schedule and step (spec 44_sha1.md R180 to R185). The constants are the
FIPS 180-4 defaults the spec gives (92_eei_decisions.md D24). -/

namespace Sys2Proof.Machine

/-- IV(SHA-1), words 0..4 (R180). Words 5..7 are not words of SHA-1, and `putWords` does not write them. -/
def sha1IV : Words where
  a := 0x67452301
  b := 0xefcdab89
  c := 0x98badcfe
  d := 0x10325476
  e := 0xc3d2e1f0
  f := 0
  g := 0
  h := 0

/-- The round bucket t div 20, in 0..3 (R184). -/
def sha1Sel (t : Nat) : Fin 4 := Fin.ofNat 4 (t / 20)

/-- K_t by its bucket (R181). -/
def sha1K (sel : Fin 4) : BitVec 32 :=
  match sel with
  | 0 => 0x5a827999#32
  | 1 => 0x6ed9eba1#32
  | 2 => 0x8f1bbcdc#32
  | 3 => 0xca62c1d6#32

/-- f_t: Ch, Parity, Maj, Parity by sel_t (R184). -/
def sha1F (sel : Fin 4) (x y z : BitVec 32) : BitVec 32 :=
  match sel with
  | 0 => ch x y z
  | 1 => parity x y z
  | 2 => maj x y z
  | 3 => parity x y z

/-- The recurrence of R183: from W_0 .. W_(t-1), W_t = ROTL^1(W_(t-3) ⊕ W_(t-8) ⊕ W_(t-14) ⊕ W_(t-16)). -/
def sha1Next (ws : List (BitVec 32)) : BitVec 32 :=
  rotl 1 (ws.getD (ws.length - 3) 0 ^^^ ws.getD (ws.length - 8) 0 ^^^ ws.getD (ws.length - 14) 0
    ^^^ ws.getD (ws.length - 16) 0)

/-- W_0 .. W_79 of a 64-byte block (R183). -/
def sha1Words (block : List Byte) : List (BitVec 32) := extendSchedule sha1Next 64 (blockWords 32 block)

/-- WS[t] = (W_t, K_t, sel_t), t = 0..79 (R184). -/
def sha1Schedule (block : List Byte) : List RoundInput :=
  (sha1Words block).zipIdx.map fun p => ⟨p.1.setWidth 64, (sha1K (sha1Sel p.2)).setWidth 64, some (sha1Sel p.2)⟩

/-- One SHA-1 round on the low halves of five cells (R185). The cells f, g and h are not words of SHA-1. A round input
without a selector is none of SHA-1's; bucket 0 stands in for it. -/
def sha1Step (s : Words) (r : RoundInput) : Words :=
  let t := rotl 5 (low32 s.a) + sha1F (r.sel.getD 0) (low32 s.b) (low32 s.c) (low32 s.d) + low32 s.e + low32 r.k + low32 r.w
  { s with a := t.setWidth 64, b := s.a, c := (rotl 30 (low32 s.b)).setWidth 64, d := s.c, e := s.d }

end Sys2Proof.Machine
end

