-- ==== Sys2Proof/Machine/Sha256.lean ====
section
/-! DEFINITION. SHA-256 and SHA-224: constants, functions, schedule and step (spec 45_sha256.md R200 to R205); the two differ only in
IV and OUT (42_block_consumer.md R147). The constants are the FIPS 180-4 defaults the spec gives (92_eei_decisions.md D24). -/

namespace Sys2Proof.Machine

/-- IV(SHA-256) (R200). -/
def sha256IV : Words where
  a := 0x6a09e667
  b := 0xbb67ae85
  c := 0x3c6ef372
  d := 0xa54ff53a
  e := 0x510e527f
  f := 0x9b05688c
  g := 0x1f83d9ab
  h := 0x5be0cd19

/-- IV(SHA-224) (R201). -/
def sha224IV : Words where
  a := 0xc1059ed8
  b := 0x367cd507
  c := 0x3070dd17
  d := 0xf70e5939
  e := 0xffc00b31
  f := 0x68581511
  g := 0x64f98fa7
  h := 0xbefa4fa4

/-- K_t, t = 0..63 (R202). -/
def sha256K : List (BitVec 32) :=
  [0x428a2f98#32, 0x71374491#32, 0xb5c0fbcf#32, 0xe9b5dba5#32, 0x3956c25b#32, 0x59f111f1#32, 0x923f82a4#32, 0xab1c5ed5#32]
  ++ [0xd807aa98#32, 0x12835b01#32, 0x243185be#32, 0x550c7dc3#32, 0x72be5d74#32, 0x80deb1fe#32, 0x9bdc06a7#32, 0xc19bf174#32]
  ++ [0xe49b69c1#32, 0xefbe4786#32, 0x0fc19dc6#32, 0x240ca1cc#32, 0x2de92c6f#32, 0x4a7484aa#32, 0x5cb0a9dc#32, 0x76f988da#32]
  ++ [0x983e5152#32, 0xa831c66d#32, 0xb00327c8#32, 0xbf597fc7#32, 0xc6e00bf3#32, 0xd5a79147#32, 0x06ca6351#32, 0x14292967#32]
  ++ [0x27b70a85#32, 0x2e1b2138#32, 0x4d2c6dfc#32, 0x53380d13#32, 0x650a7354#32, 0x766a0abb#32, 0x81c2c92e#32, 0x92722c85#32]
  ++ [0xa2bfe8a1#32, 0xa81a664b#32, 0xc24b8b70#32, 0xc76c51a3#32, 0xd192e819#32, 0xd6990624#32, 0xf40e3585#32, 0x106aa070#32]
  ++ [0x19a4c116#32, 0x1e376c08#32, 0x2748774c#32, 0x34b0bcb5#32, 0x391c0cb3#32, 0x4ed8aa4a#32, 0x5b9cca4f#32, 0x682e6ff3#32]
  ++ [0x748f82ee#32, 0x78a5636f#32, 0x84c87814#32, 0x8cc70208#32, 0x90befffa#32, 0xa4506ceb#32, 0xbef9a3f7#32, 0xc67178f2#32]

/-- Σ0 (R203). -/
def sha256BigSigma0 (x : BitVec 32) : BitVec 32 := rotr 2 x ^^^ rotr 13 x ^^^ rotr 22 x

/-- Σ1 (R203). -/
def sha256BigSigma1 (x : BitVec 32) : BitVec 32 := rotr 6 x ^^^ rotr 11 x ^^^ rotr 25 x

/-- σ0 (R203). -/
def sha256SmallSigma0 (x : BitVec 32) : BitVec 32 := rotr 7 x ^^^ rotr 18 x ^^^ shr 3 x

/-- σ1 (R203). -/
def sha256SmallSigma1 (x : BitVec 32) : BitVec 32 := rotr 17 x ^^^ rotr 19 x ^^^ shr 10 x

/-- The recurrence of R204: from W_0 .. W_(t-1), W_t = σ1(W_(t-2)) + W_(t-7) + σ0(W_(t-15)) + W_(t-16). -/
def sha256Next (ws : List (BitVec 32)) : BitVec 32 :=
  sha256SmallSigma1 (ws.getD (ws.length - 2) 0) + ws.getD (ws.length - 7) 0 + sha256SmallSigma0 (ws.getD (ws.length - 15) 0)
    + ws.getD (ws.length - 16) 0

/-- W_0 .. W_63 of a 64-byte block (R204). -/
def sha256Words (block : List Byte) : List (BitVec 32) := extendSchedule sha256Next 48 (blockWords 32 block)

/-- WS[t] = (W_t, K_t, none) (R204). -/
def sha256Schedule (block : List Byte) : List RoundInput :=
  ((sha256Words block).zip sha256K).map fun p => ⟨p.1.setWidth 64, p.2.setWidth 64, none⟩

/-- One round (R205), on the low halves of the cells. -/
def sha256Step (s : Words) (r : RoundInput) : Words :=
  let t1 := low32 s.h + sha256BigSigma1 (low32 s.e) + ch (low32 s.e) (low32 s.f) (low32 s.g) + low32 r.k + low32 r.w
  let t2 := sha256BigSigma0 (low32 s.a) + maj (low32 s.a) (low32 s.b) (low32 s.c)
  { a := (t1 + t2).setWidth 64, b := s.a, c := s.b, d := s.c, e := (low32 s.d + t1).setWidth 64, f := s.e, g := s.f, h := s.g }

end Sys2Proof.Machine
end

