-- ==== Sys2Proof/Machine/Sha512.lean ====
section
/-! DEFINITION. The SHA-512 family: constants, functions, schedule and step (spec 46_sha512.md R220 to R227); the four differ only
in IV and OUT (42_block_consumer.md R147). The constants are the FIPS 180-4 defaults the spec gives (92_eei_decisions.md D24). -/

namespace Sys2Proof.Machine

/-- IV(SHA-512) (R220). -/
def sha512IV : Words where
  a := 0x6a09e667f3bcc908
  b := 0xbb67ae8584caa73b
  c := 0x3c6ef372fe94f82b
  d := 0xa54ff53a5f1d36f1
  e := 0x510e527fade682d1
  f := 0x9b05688c2b3e6c1f
  g := 0x1f83d9abfb41bd6b
  h := 0x5be0cd19137e2179

/-- IV(SHA-384) (R221). -/
def sha384IV : Words where
  a := 0xcbbb9d5dc1059ed8
  b := 0x629a292a367cd507
  c := 0x9159015a3070dd17
  d := 0x152fecd8f70e5939
  e := 0x67332667ffc00b31
  f := 0x8eb44a8768581511
  g := 0xdb0c2e0d64f98fa7
  h := 0x47b5481dbefa4fa4

/-- IV(SHA-512/224) (R222). -/
def sha512t224IV : Words where
  a := 0x8c3d37c819544da2
  b := 0x73e1996689dcd4d6
  c := 0x1dfab7ae32ff9c82
  d := 0x679dd514582f9fcf
  e := 0x0f6d2b697bd44da8
  f := 0x77e36f7304c48942
  g := 0x3f9d85a86a1d36c8
  h := 0x1112e6ad91d692a1

/-- IV(SHA-512/256) (R222). -/
def sha512t256IV : Words where
  a := 0x22312194fc2bf72c
  b := 0x9f555fa3c84c64c2
  c := 0x2393b86b6f53b151
  d := 0x963877195940eabd
  e := 0x96283ee2a88effe3
  f := 0xbe5e1e2553863992
  g := 0x2b0199fc2c85b8aa
  h := 0x0eb72ddc81c52ca2

/-- K_t, t = 0..79 (R224). -/
def sha512K : List (BitVec 64) :=
  [0x428a2f98d728ae22#64, 0x7137449123ef65cd#64, 0xb5c0fbcfec4d3b2f#64, 0xe9b5dba58189dbbc#64]
  ++ [0x3956c25bf348b538#64, 0x59f111f1b605d019#64, 0x923f82a4af194f9b#64, 0xab1c5ed5da6d8118#64]
  ++ [0xd807aa98a3030242#64, 0x12835b0145706fbe#64, 0x243185be4ee4b28c#64, 0x550c7dc3d5ffb4e2#64]
  ++ [0x72be5d74f27b896f#64, 0x80deb1fe3b1696b1#64, 0x9bdc06a725c71235#64, 0xc19bf174cf692694#64]
  ++ [0xe49b69c19ef14ad2#64, 0xefbe4786384f25e3#64, 0x0fc19dc68b8cd5b5#64, 0x240ca1cc77ac9c65#64]
  ++ [0x2de92c6f592b0275#64, 0x4a7484aa6ea6e483#64, 0x5cb0a9dcbd41fbd4#64, 0x76f988da831153b5#64]
  ++ [0x983e5152ee66dfab#64, 0xa831c66d2db43210#64, 0xb00327c898fb213f#64, 0xbf597fc7beef0ee4#64]
  ++ [0xc6e00bf33da88fc2#64, 0xd5a79147930aa725#64, 0x06ca6351e003826f#64, 0x142929670a0e6e70#64]
  ++ [0x27b70a8546d22ffc#64, 0x2e1b21385c26c926#64, 0x4d2c6dfc5ac42aed#64, 0x53380d139d95b3df#64]
  ++ [0x650a73548baf63de#64, 0x766a0abb3c77b2a8#64, 0x81c2c92e47edaee6#64, 0x92722c851482353b#64]
  ++ [0xa2bfe8a14cf10364#64, 0xa81a664bbc423001#64, 0xc24b8b70d0f89791#64, 0xc76c51a30654be30#64]
  ++ [0xd192e819d6ef5218#64, 0xd69906245565a910#64, 0xf40e35855771202a#64, 0x106aa07032bbd1b8#64]
  ++ [0x19a4c116b8d2d0c8#64, 0x1e376c085141ab53#64, 0x2748774cdf8eeb99#64, 0x34b0bcb5e19b48a8#64]
  ++ [0x391c0cb3c5c95a63#64, 0x4ed8aa4ae3418acb#64, 0x5b9cca4f7763e373#64, 0x682e6ff3d6b2b8a3#64]
  ++ [0x748f82ee5defb2fc#64, 0x78a5636f43172f60#64, 0x84c87814a1f0ab72#64, 0x8cc702081a6439ec#64]
  ++ [0x90befffa23631e28#64, 0xa4506cebde82bde9#64, 0xbef9a3f7b2c67915#64, 0xc67178f2e372532b#64]
  ++ [0xca273eceea26619c#64, 0xd186b8c721c0c207#64, 0xeada7dd6cde0eb1e#64, 0xf57d4f7fee6ed178#64]
  ++ [0x06f067aa72176fba#64, 0x0a637dc5a2c898a6#64, 0x113f9804bef90dae#64, 0x1b710b35131c471b#64]
  ++ [0x28db77f523047d84#64, 0x32caab7b40c72493#64, 0x3c9ebe0a15c9bebc#64, 0x431d67c49c100d4c#64]
  ++ [0x4cc5d4becb3e42b6#64, 0x597f299cfc657e2a#64, 0x5fcb6fab3ad6faec#64, 0x6c44198c4a475817#64]

/-- Σ0 (R225). -/
def sha512BigSigma0 (x : BitVec 64) : BitVec 64 := rotr 28 x ^^^ rotr 34 x ^^^ rotr 39 x

/-- Σ1 (R225). -/
def sha512BigSigma1 (x : BitVec 64) : BitVec 64 := rotr 14 x ^^^ rotr 18 x ^^^ rotr 41 x

/-- σ0 (R225). -/
def sha512SmallSigma0 (x : BitVec 64) : BitVec 64 := rotr 1 x ^^^ rotr 8 x ^^^ shr 7 x

/-- σ1 (R225). -/
def sha512SmallSigma1 (x : BitVec 64) : BitVec 64 := rotr 19 x ^^^ rotr 61 x ^^^ shr 6 x

/-- The recurrence of R226: from W_0 .. W_(t-1), W_t = σ1(W_(t-2)) + W_(t-7) + σ0(W_(t-15)) + W_(t-16). -/
def sha512Next (ws : List (BitVec 64)) : BitVec 64 :=
  sha512SmallSigma1 (ws.getD (ws.length - 2) 0) + ws.getD (ws.length - 7) 0 + sha512SmallSigma0 (ws.getD (ws.length - 15) 0)
    + ws.getD (ws.length - 16) 0

/-- W_0 .. W_79 of a 128-byte block (R226). -/
def sha512Words (block : List Byte) : List (BitVec 64) := extendSchedule sha512Next 64 (blockWords 64 block)

/-- WS[t] = (W_t, K_t, none) (R226). -/
def sha512Schedule (block : List Byte) : List RoundInput :=
  ((sha512Words block).zip sha512K).map fun p => ⟨p.1, p.2, none⟩

/-- One round (R227). -/
def sha512Step (s : Words) (r : RoundInput) : Words :=
  let t1 := s.h + sha512BigSigma1 s.e + ch s.e s.f s.g + r.k + r.w
  let t2 := sha512BigSigma0 s.a + maj s.a s.b s.c
  { a := t1 + t2, b := s.a, c := s.b, d := s.c, e := s.d + t1, f := s.e, g := s.f, h := s.g }

end Sys2Proof.Machine
end

