-- ==== Sys2Proof/Machine/Consumer.lean ====
section
/-! DEFINITION. The block consumer, the accumulator and the output (spec 42_block_consumer.md R140 to R148), generic over the
algorithm. Handle runs through the transient state S, WS, t (10_state.md R32, R33): it starts the consumer on a block, runs R
rounds and merges. -/

namespace Sys2Proof.Machine

/-- IV(alg) (R146): the built-in tables. -/
def iv : Alg → Words
  | .sha1 => sha1IV
  | .sha256 => sha256IV
  | .sha224 => sha224IV
  | .sha512 => sha512IV
  | .sha384 => sha384IV
  | .sha512_224 => sha512t224IV
  | .sha512_256 => sha512t256IV

/-- `Schedule_ALG(block)`: the R round inputs of a block (R141, R147). -/
def schedule (a : Alg) (block : List Byte) : List RoundInput :=
  match a with
  | .sha1 => sha1Schedule block
  | .sha256 | .sha224 => sha256Schedule block
  | .sha512 | .sha384 | .sha512_224 | .sha512_256 => sha512Schedule block

/-- `Step_ALG(S, (W_t, K_t, sel_t))` (R142, R147). -/
def roundStep (a : Alg) (s : Words) (r : RoundInput) : Words :=
  match a with
  | .sha1 => sha1Step s r
  | .sha256 | .sha224 => sha256Step s r
  | .sha512 | .sha384 | .sha512_224 | .sha512_256 => sha512Step s r

/-- Word-wise addition of two banks at the algorithm's width: every lane of w bits wraps, no carry passes between lanes. -/
def addWords (a : Alg) (x y : Words) : Words :=
  if a.narrow then
    { a := (low32 x.a + low32 y.a).setWidth 64, b := (low32 x.b + low32 y.b).setWidth 64
      c := (low32 x.c + low32 y.c).setWidth 64, d := (low32 x.d + low32 y.d).setWidth 64
      e := (low32 x.e + low32 y.e).setWidth 64, f := (low32 x.f + low32 y.f).setWidth 64
      g := (low32 x.g + low32 y.g).setWidth 64, h := (low32 x.h + low32 y.h).setWidth 64 }
  else
    { a := x.a + y.a, b := x.b + y.b, c := x.c + y.c, d := x.d + y.d
      e := x.e + y.e, f := x.f + y.f, g := x.g + y.g, h := x.h + y.h }

/-- `Merge(H, S)` (R143), written into H's cells. -/
def merge (a : Alg) (acc s : Words) : Words := putWords a acc (addWords a acc s)

/-- One round of a busy consumer: S <- Step(S, WS[t]), t <- t + 1 (R140). -/
def Consumer.round (a : Alg) : Consumer → Consumer
  | .idle => .idle
  | .busy s ws t =>
    match ws[t]? with
    | some r => .busy (roundStep a s r) ws (t + 1)
    | none => .busy s ws t

/-- H after the fold: Merge adds the folded S to the pre-block H (R140). -/
def Consumer.merged (a : Alg) (acc : Words) : Consumer → Words
  | .idle => acc
  | .busy s _ _ => merge a acc s

/-- The start of a block: WS <- Schedule(block), S <- H, t <- 0 (R140). -/
def consumerStart (block : List Byte) (s : State) : State :=
  { s with consumer := .busy s.acc (schedule s.alg block) 0 }

/-- One round on the state. -/
def consumerRound (s : State) : State := { s with consumer := s.consumer.round s.alg }

/-- n rounds on the state. -/
def consumerRounds : Nat → State → State
  | 0, s => s
  | n + 1, s => consumerRounds n (consumerRound s)

/-- The end of a block: H <- Merge(H, S), after which S, WS and t are dead (R34). -/
def consumerMerge (s : State) : State :=
  { s with acc := s.consumer.merged s.alg s.acc, consumer := .idle }

/-- `Handle(block)` for a block of B bytes (R140); it is atomic (R148). -/
def handle (block : List Byte) (s : State) : State :=
  consumerMerge (consumerRounds s.alg.rounds (consumerStart block s))

/-- `LoadIV()` (R146): H[i] <- IV(ALG)[i] for i = 0..N-1. -/
def loadIV (s : State) : State := { s with acc := putWords s.alg s.acc (iv s.alg) }

/-- The w/8 big-endian bytes of a cell (R144). -/
def wordBytes (a : Alg) (x : Cell64) : List Byte := beBytes (a.wordBits / 8) x.toNat

/-- `ToBytes(H)` (R144): the first OUT of the N·w/8 big-endian bytes of H. -/
def toBytes (a : Alg) (x : Words) : List Byte :=
  (([x.a, x.b, x.c, x.d, x.e, x.f, x.g, x.h].take a.stateWords).flatMap (wordBytes a)).take a.outBytes

/-- A 64-byte bank holding a byte string followed by zeros. -/
def bankOf (bs : List Byte) : Vector Byte 64 :=
  ⟨⟨bs.take 64 ++ zeros (64 - bs.length)⟩, by simp [zeros]; omega⟩

/-- `LatchDigest()` (R145): D <- ToBytes(H) ‖ zeros(64 - OUT), DVALID <- 1. -/
def latchDigest (s : State) : State := { s with digest := bankOf (toBytes s.alg s.acc), dvalid := true }

end Sys2Proof.Machine
end

