-- ==== Sys2Proof/Machine/Padder.lean ====
section
/-! DEFINITION. The Merkle–Damgård padder (spec 41_padding.md R120 to R127): the state machine over PAD (10_state.md R31). -/

namespace Sys2Proof.Machine

/-- `tail ‖ 0x80 ‖ zeros(B - L - 1)` (R122). -/
def terminated (a : Alg) (tl : List Byte) : List Byte := tl ++ 0x80#8 :: zeros (a.blockBytes - tl.length - 1)

/-- `PadNew(tail, footer)` (R120, R122): the single-block case is L + 1 + F ≤ B and no other threshold (R127). `none` is the
failed invariant check L < B (R121). -/
def padNew (a : Alg) (tl footer : List Byte) : Option Pad :=
  if tl.length < a.blockBytes then
    if tl.length + 1 + a.footerBytes ≤ a.blockBytes then
      some (.finalBlock ((terminated a tl).take (a.blockBytes - a.footerBytes) ++ footer))
    else some (.penultimateBlock (terminated a tl) footer)
  else none

/-- What a call of PadNext gives: whether more blocks follow, the block written into `out`, and the next PAD (R123). -/
structure PadStep where
  more : Bool
  out : List Byte
  pad : Pad
deriving DecidableEq, Repr

/-- `PadNext(out)` (R123). In DONE it is inert (R124); with no finalize in progress it is never called, and is inert too. -/
def padNext (a : Alg) (p : Pad) (out : List Byte) : PadStep :=
  match p with
  | .penultimateBlock blk footer =>
    { more := true, out := blk, pad := .finalBlock (zeros (a.blockBytes - a.footerBytes) ++ footer) }
  | .finalBlock blk => { more := false, out := blk, pad := .done }
  | .done => { more := false, out := out, pad := .done }
  | .none => { more := false, out := out, pad := .none }

end Sys2Proof.Machine
end

