-- ==== Sys2Proof/Machine/Stream.lean ====
section
/-! DEFINITION. The streaming padder: the absorb and finalize sequences (spec 43_streaming_padder.md R160 to R163). -/

namespace Sys2Proof.Machine

/-- Every further whole block of the input goes to Handle; the remainder, shorter than a block, is left (the while loop of
R160). `fuel` bounds the number of blocks. -/
def absorbBlocks : Nat → List Byte → State → List Byte × State
  | 0, d, s => (d, s)
  | fuel + 1, d, s =>
    if s.alg.blockBytes ≤ d.length then
      absorbBlocks fuel (d.drop s.alg.blockBytes) (handle (d.take s.alg.blockBytes) s)
    else (d, s)

/-- The buffer and accumulator part of `Absorb(d)` (R160): all of it but the counter. -/
def absorbBytes (d : List Byte) (s : State) : State :=
  let off := counterOffset s
  let room := s.alg.blockBytes - off
  if off + d.length < s.alg.blockBytes then { s with buf := writeBytes s.buf off d }
  else
    let filled := { s with buf := writeBytes s.buf off (d.take room) }
    let r := absorbBlocks d.length (d.drop room) (handle (bufTake s.alg.blockBytes filled) filled)
    { r.2 with buf := writeBytes r.2.buf 0 r.1 }

/-- `Absorb(d, cw)` (R160): the counter always advances by n, after the bytes are in. -/
def absorb (d : List Byte) (cw : Word) (s : State) : State := counterAdd d.length cw (absorbBytes d s)

/-- The repeat loop of R163: every block PadNext writes goes to Handle, the one of the call that returns false too. `fuel`
bounds the number of blocks, which is one or two (R125). -/
def padLoop : Nat → State → State
  | 0, s => s
  | fuel + 1, s =>
    let r := padNext s.alg s.pad []
    let handled := handle r.out { s with pad := r.pad }
    if r.more then padLoop fuel handled else handled

/-- The end of a finalize (R163): FINALIZE_RESET reloads the IV and zeroes the counter, FINALIZE closes the message. -/
def finishFinalize (reset : Bool) (s : State) : State :=
  if reset then { counterZero (loadIV s) with phase := .absorb } else { s with phase := .done }

/-- A finalize of a given tail and footer (R163). A failed invariant check raises FAULT before any block is handled, and the
command ends with nothing else changed (R121, 60_exceptions.md R280). -/
def finalizeFrom (tl footer : List Byte) (cw : Word) (reset : Bool) (s : State) : State :=
  match padNew s.alg tl footer with
  | none => raiseError .fault cw s
  | some p => finishFinalize reset (latchDigest { padLoop 2 { s with pad := p } with pad := .none })

/-- `FinalizeSequence(cw, reset)` (R163). -/
def finalizeSequence (cw : Word) (reset : Bool) (s : State) : State :=
  finalizeFrom (tail s) (counterFooter s) cw reset s

end Sys2Proof.Machine
end

