-- ==== Sys2Proof/Machine/Commands.lean ====
section
/-! DEFINITION. The meanings of the six commands (spec 47_commands.md R240 to R248). A meaning is the command as R240 runs it:
the legality of its operands (ILLEGAL), the phase check (STATE), then its effect; each of the three ends in a next state. -/

namespace Sys2Proof.Machine

/-- The checks of R240 around an effect, in the order of R277: an illegal word raises ILLEGAL, a command not allowed in PHASE
raises STATE, and either changes nothing but the error state (R271, R272). ERRINFO is the command's word. -/
def guarded (i : Instr) (effect : State → State) (s : State) : State :=
  if i.wellFormed = false then raiseError .illegal (encode i) s
  else if allowed i s.phase = false then raiseError .state (encode i) s
  else effect s

/-- `Init(alg)` (R241). -/
def initEffect (a : Alg) (s : State) : State :=
  { counterZero (loadIV { s with alg := a }) with
    digest := Vector.replicate 64 0
    dvalid := false
    phase := .absorb }

/-- NOP (R246): no effect. -/
def execNop (s : State) : Host.Outcome State Fault Refusal := .next (guarded .nop id s)

/-- INIT alg (R241). The reserved code 7 never gets past the legality check (R93). -/
def execInit (alg : BitVec 3) (s : State) : Host.Outcome State Fault Refusal :=
  .next (guarded (.init alg) (fun t => (algOperand alg).elim t fun a => initEffect a t) s)

/-- FEED nb (R242): absorb the first nb lanes of DATA. -/
def execFeed (nb : BitVec 3) (s : State) : Host.Outcome State Fault Refusal :=
  .next (guarded (.feed nb) (fun t => absorb (lanes nb t) (encode (.feed nb)) t) s)

/-- FINALIZE (R243). -/
def execFinalize (s : State) : Host.Outcome State Fault Refusal :=
  .next (guarded .finalize (finalizeSequence (encode .finalize) false) s)

/-- FINALIZE_RESET (R244). -/
def execFinalizeReset (s : State) : Host.Outcome State Fault Refusal :=
  .next (guarded .finalizeReset (finalizeSequence (encode .finalizeReset) true) s)

/-- CLRERR (R245). -/
def execClrerr (s : State) : Host.Outcome State Fault Refusal := .next (guarded .clrerr clearErrors s)

end Sys2Proof.Machine
end

