-- ==== Sys2Proof/Machine/Dispatch.lean ====
section
/-! DEFINITION. One arm per command of the opcode table (spec opcode_table.json). -/

namespace Sys2Proof.Machine

def exec (i : Instr) (s : State) : Host.Outcome State Fault Refusal :=
  match i with
  | .nop => Sys2Proof.Machine.execNop s
  | .init alg => Sys2Proof.Machine.execInit alg s
  | .feed nb => Sys2Proof.Machine.execFeed nb s
  | .finalize => Sys2Proof.Machine.execFinalize s
  | .finalizeReset => Sys2Proof.Machine.execFinalizeReset s
  | .clrerr => Sys2Proof.Machine.execClrerr s

end Sys2Proof.Machine
end

