-- ==== Sys2Proof/Machine/HostPort.lean ====
section
/-! DEFINITION. The host port (spec 20_memory.md R60 to R75): RegRead, RegWrite, the platform's loads and stores, the command
register (47_commands.md R240) and reset (70_reset_and_hazards.md R300, R301). -/

namespace Sys2Proof.Machine

/-- DIGESTi (10_state.md R38): D's bytes 4i .. 4i+3, big-endian. -/
def digestWord (s : State) (i : Nat) : Word := beWord 32 ((s.digest.toList.drop (4 * i)).take 4)

/-- COUNTi (10_state.md R37): COUNT[32i+31 : 32i]. -/
def countWord (s : State) (i : Nat) : Word := s.count.extractLsb' (32 * i) 32

/-- `RegRead(off)` (R66): the register map of R64. A misaligned or unmapped offset reads 0, and so does CMD. -/
def regRead (off : BitVec 8) (s : State) : Word :=
  let o := off.toNat
  if o % 4 ≠ 0 then 0
  else if o = 0x00 then 0
  else if o = 0x04 then s.data
  else if o = 0x08 then statusWord s
  else if o = 0x0C then s.errinfo
  else if o ≤ 0x1C then countWord s ((o - 0x10) / 4)
  else if o ≤ 0x5C then digestWord s ((o - 0x20) / 4)
  else 0

/-- `Command(cw)` (47_commands.md R240): an illegal word raises ILLEGAL; a legal one runs as the command it decodes to. -/
def command (cw : Word) (s : State) : Host.Outcome State Fault Refusal :=
  match decode cw with
  | .ok i => exec i s
  | .error _ => .next (raiseError .illegal cw s)

/-- The writes RegWrite accepts (R67): all four strobes, at CMD or DATA. Both offsets are multiples of 4. -/
def writeAccepted (off : BitVec 8) (strb : BitVec 4) : Bool :=
  decide (strb = 0b1111#4 ∧ (off = 0x00#8 ∨ off = 0x04#8))

/-- ERRINFO of a refused write: 0x100 | off (60_exceptions.md R273, R275). -/
def accessInfo (off : BitVec 8) : Word := 0x100#32 ||| off.setWidth 32

/-- `RegWrite(off, v, strb)` (R67). A refused write is dropped whole and raises ACCESS. -/
def regWrite (off : BitVec 8) (v : Word) (strb : BitVec 4) (s : State) : Host.Outcome State Fault Refusal :=
  if writeAccepted off strb = false then .next (raiseError .access (accessInfo off) s)
  else if off = 0x04#8 then .next { s with data := v }
  else command v s

/-- A reset edge (70_reset_and_hazards.md R300, R302): every state element takes its reset value, and ack is 0. The host's
later events stay. A transaction outstanding at the edge is never acknowledged and none of its effects survives (R301). -/
def resetEdge (s : State) : State := { State.reset with port := s.port }

/-- One transaction, complete at its acknowledge (R63, R75): a read answers its data and changes nothing else (R66); a write
is acknowledged whether it is accepted or refused (60_exceptions.md R270). -/
def transact (t : Transaction) (s : State) : Host.Outcome State Fault Refusal :=
  match t with
  | .read off => .next { s with out := .ackRead (regRead off s) }
  | .write off v strb => regWrite off v strb { s with out := .ackWrite }

/-- One host event. -/
def hostEvent (e : HostEvent) (s : State) : Host.Outcome State Fault Refusal :=
  match e with
  | .txn t => transact t s
  | .rst _ => .next (resetEdge s)

/-- No host event: the engine takes no step of its own (00_scope.md R7); no transaction completes, so ack is 0 (R63). -/
def idleCycle (s : State) : State := { s with out := .noAck }

/-- The port offset of a platform address in the window (R60), none outside it. -/
def windowOffset (addr : Nat) : Option (BitVec 8) :=
  if Config.engineBase ≤ addr ∧ addr < Config.engineBase + Config.windowBytes then
    some (BitVec.ofNat 8 (addr - Config.engineBase))
  else none

/-- The port offset of a platform access of n bytes. Four bytes are presented at their own offset (R60). A narrower access reaches
the port too (R68), at its own offset or its word's. An access of no bytes or of more than four presents no transaction, since
the engine serves none (R68); what the platform makes of it is outside the engine. (How a width other than four is presented is
the model's choice where R68 leaves it open: log entry 17.) -/
def portOffset (addr n : Nat) : Option (BitVec 8) :=
  if n = 0 ∨ 4 < n then none
  else (windowOffset addr).map fun off => if n < 4 ∧ Config.narrowPresentsWord = true then off &&& 0xFC#8 else off

/-- The strobes of a platform store of n bytes: all four for a word (R60), and never all four for a narrower one (R68). -/
def accessStrobes (addr n : Nat) : BitVec 4 :=
  if n = 4 then 0b1111#4 else BitVec.ofNat 4 (Config.narrowStrobes addr n).val

/-- `MemRead(addr, n)` as the port sees it (00_scope.md R12, 20_memory.md R60, R68). The answer is 32 bits at every width, of
which a host that reads fewer uses those it wants. For n other than 4 the offset is the model's choice (log entry 17). -/
def memRead (addr n : Nat) : Option Transaction := (portOffset addr n).map .read

/-- `MemWrite(addr, n, v)` as the port sees it (R12, R60, R68): a store narrower than a word has a partial strobe, so RegWrite
refuses it (R67). v is the bus word; for n other than 4 its lanes, the strobes and the offset are the model's choice (log
entry 17), and no refused write depends on the lanes. -/
def memWrite (addr n : Nat) (v : Word) : Option Transaction :=
  (portOffset addr n).map fun off => .write off v (accessStrobes addr n)

end Sys2Proof.Machine
end

