-- ==== Sys2Proof/Machine/Step.lean ====
section
/-! DEFINITION. One step: the next host event (spec 00_scope.md R6, R7; 20_memory.md R75). The engine has no program counter and
fetches nothing (10_state.md R21, 20_memory.md R78): its instruction is the word of the next CMD write at its port. -/

namespace Sys2Proof.Machine

/-- One step of the machine: the oldest host event is taken from the port and performed to completion. -/
def step (s : State) : Host.Outcome State Fault Refusal :=
  match s.port with
  | [] => .next (idleCycle s)
  | e :: rest => hostEvent e { s with port := rest }

/-- The host writes an instruction's word to CMD next, with all four strobes: the one way an instruction reaches the engine
(R21, R78; log entry 3). -/
def State.withFetchWord (s : State) (nbits w : Nat) : State :=
  { s with port := .txn (.write 0x00#8 (BitVec.ofNat 32 (w % 2 ^ nbits)) 0b1111#4) :: s.port }

end Sys2Proof.Machine
end

