-- ==== Sys2Proof/Machine/Asm.lean ====
section
/-! DEFINITION. Statements, pseudo-instructions and assembler text (spec 30_encoding.md R100 to R104). No toolchain exists for
this hardware; the syntax is the spec's own. A statement is one host transaction (R102); a pseudo-instruction is a list of
statements (R104). -/

namespace Sys2Proof.Machine

/-- A register name of the map (20_memory.md R64), or a raw offset `@0xNN`, which may be misaligned or unmapped (R100). -/
inductive RegName where
  | cmd
  | data
  | status
  | errinfo
  | count (i : Fin 4)
  | digest (i : Fin 16)
  | raw (off : BitVec 8)
deriving DecidableEq, Repr

/-- The offset of a register (R64). -/
def RegName.offset : RegName → BitVec 8
  | .cmd => 0x00
  | .data => 0x04
  | .status => 0x08
  | .errinfo => 0x0C
  | .count i => BitVec.ofNat 8 (0x10 + 4 * i.val)
  | .digest i => BitVec.ofNat 8 (0x20 + 4 * i.val)
  | .raw off => off

/-- The statements of R100. -/
inductive Statement where
  | command (i : Instr)
  | write (reg : RegName) (v : Word) (strb : BitVec 4)
  | read (reg : RegName)
deriving DecidableEq, Repr

/-- The transaction of a statement: a command mnemonic is a write of its word to CMD with all strobes (R100, R102). -/
def Statement.transaction : Statement → Transaction
  | .command i => .write 0x00#8 (encode i) 0b1111#4
  | .write reg v strb => .write reg.offset v strb
  | .read reg => .read reg.offset

/-- The host events of a list of statements, in order. -/
def hostEvents (ss : List Statement) : List HostEvent := ss.map fun s => .txn s.transaction

/-! ### Pseudo-instructions (R104) -/

/-- DATA's word for up to four bytes, byte 0 in bits 31:24 and missing lanes 0 (R104). -/
def laneWord (b0 b1 b2 b3 : Byte) : Word := b0 ++ b1 ++ b2 ++ b3

/-- One chunk: `write DATA, w` and `feed m`. -/
def feedChunk (w : Word) (m : BitVec 3) : List Statement := [.write .data w 0b1111, .command (.feed m)]

/-- `feedb <bytes>`: FEEDs of four bytes, with a shorter last one; no bytes expand to nothing. -/
def feedb : List Byte → List Statement
  | [] => []
  | [a] => feedChunk (laneWord a 0 0 0) 1
  | [a, b] => feedChunk (laneWord a b 0 0) 2
  | [a, b, c] => feedChunk (laneWord a b c 0) 3
  | a :: b :: c :: d :: rest => feedChunk (laneWord a b c d) 4 ++ feedb rest

/-- `chain <bytes>`, an exact alias of feedb. -/
def chain (bs : List Byte) : List Statement := feedb bs

/-- `update <bytes>`, an exact alias of feedb. -/
def update (bs : List Byte) : List Statement := feedb bs

/-- `hash <alg>, <bytes>`: INIT, feedb, FINALIZE; there is no separate one-shot path (43_streaming_padder.md R166). -/
def hash (alg : BitVec 3) (bs : List Byte) : List Statement := .command (.init alg) :: feedb bs ++ [.command .finalize]

/-- `readdigest`: reads the OUT(ALG) digest bytes. -/
def readdigest (a : Alg) : List Statement :=
  (List.range ((a.outBytes + 3) / 4)).map fun i => .read (.digest (Fin.ofNat 16 i))

/-! ### Text (R100, R101, R103) -/

/-- The value of a digit in a base up to 16. -/
def digitVal (c : Char) : Option Nat :=
  let n := c.toNat
  if 48 ≤ n ∧ n ≤ 57 then some (n - 48)
  else if 97 ≤ n ∧ n ≤ 102 then some (n - 87)
  else if 65 ≤ n ∧ n ≤ 70 then some (n - 55)
  else none

/-- A number in a base; an empty string is none. -/
def parseDigits (base : Nat) (cs : List Char) : Option Nat :=
  if cs = [] then none
  else cs.foldl (fun acc c => acc.bind fun a => (digitVal c).bind fun d => if d < base then some (a * base + d) else none)
    (some 0)

/-- A number in hexadecimal (0x), binary (0b) or decimal. -/
def parseNumber : List Char → Option Nat
  | '0' :: 'x' :: ds => parseDigits 16 ds
  | '0' :: 'b' :: ds => parseDigits 2 ds
  | ds => parseDigits 10 ds

/-- A number below a bound. -/
def parseBelow (bound : Nat) (cs : List Char) : Option Nat := (parseNumber cs).filter fun n => decide (n < bound)

/-- The names of the algorithms (R101). -/
def Alg.asmName : Alg → String
  | .sha1 => "sha1"
  | .sha256 => "sha256"
  | .sha224 => "sha224"
  | .sha512 => "sha512"
  | .sha384 => "sha384"
  | .sha512_224 => "sha512_224"
  | .sha512_256 => "sha512_256"

/-- Every algorithm once. -/
def allAlgs : List Alg := [.sha1, .sha256, .sha224, .sha512, .sha384, .sha512_224, .sha512_256]

/-- `<alg>`: a name, or a raw number 0..7 (R101). -/
def parseAlg (cs : List Char) : Option (BitVec 3) :=
  match allAlgs.find? fun a => decide ((Alg.asmName a).toList = cs) with
  | some a => some a.code
  | none => (parseBelow 8 cs).map (BitVec.ofNat 3)

/-- `<reg>`: a register name, or `@0xNN` (R100). -/
def parseReg (cs : List Char) : Option RegName :=
  match cs with
  | '@' :: ds => (parseBelow 256 ds).map fun n => .raw (BitVec.ofNat 8 n)
  | 'C' :: 'O' :: 'U' :: 'N' :: 'T' :: ds =>
    if ds.length = 1 then ((parseDigits 10 ds).filter fun n => decide (n < 4)).map fun n => .count (Fin.ofNat 4 n) else none
  | 'D' :: 'I' :: 'G' :: 'E' :: 'S' :: 'T' :: ds =>
    if ds.length = 1 ∨ (ds.length = 2 ∧ ds.head? = some '1') then
      ((parseDigits 10 ds).filter fun n => decide (n < 16)).map fun n => .digest (Fin.ofNat 16 n)
    else none
  | _ =>
    if cs = "CMD".toList then some .cmd
    else if cs = "DATA".toList then some .data
    else if cs = "STATUS".toList then some .status
    else if cs = "ERRINFO".toList then some .errinfo
    else none

/-- Spaces at both ends removed. -/
def trimSpaces (cs : List Char) : List Char := ((cs.dropWhile (· = ' ')).reverse.dropWhile (· = ' ')).reverse

/-- The bytes of pairs of hexadecimal digits (R103). -/
def hexPairs : List Char → Option (List Byte)
  | [] => some []
  | [_] => none
  | a :: b :: rest =>
    match digitVal a, digitVal b, hexPairs rest with
    | some x, some y, some bs => some (BitVec.ofNat 8 (16 * x + y) :: bs)
    | _, _, _ => none

/-- The characters between two double quotes, none if the string is not one quoted string. -/
def quoted : List Char → Option (List Char)
  | '"' :: rest =>
    let body := rest.takeWhile (· ≠ '"')
    if rest.drop body.length = ['"'] then some body else none
  | _ => none

/-- `<bytes>`: a quoted ASCII string, or x"…" with pairs of hex digits, spaces ignored (R103). -/
def parseBytes (cs : List Char) : Option (List Byte) :=
  match cs with
  | 'x' :: rest => (quoted rest).bind fun body => hexPairs (body.filter (· ≠ ' '))
  | _ => (quoted cs).bind fun body =>
      if body.all fun c => decide (c.toNat < 128) then some (body.map fun c => BitVec.ofNat 8 c.toNat) else none

/-- A line of source: a statement, a pseudo-instruction, or nothing (R100, R104). -/
inductive AsmLine where
  | blank
  | statement (s : Statement)
  | feedb (bs : List Byte)
  | chain (bs : List Byte)
  | update (bs : List Byte)
  | hash (alg : BitVec 3) (bs : List Byte)
  | readdigest
deriving DecidableEq, Repr

/-- The statements of a line; readdigest reads the digest of the algorithm in ALG. -/
def AsmLine.expand (a : Alg) : AsmLine → List Statement
  | .blank => []
  | .statement s => [s]
  | .feedb bs => Machine.feedb bs
  | .chain bs => Machine.chain bs
  | .update bs => Machine.update bs
  | .hash alg bs => Machine.hash alg bs
  | .readdigest => Machine.readdigest a

/-- The line without its comment: `#` starts one, outside a quoted string (R100). -/
def stripComment : Bool → List Char → List Char
  | _, [] => []
  | inQuotes, c :: cs =>
    if c = '#' ∧ inQuotes = false then []
    else c :: stripComment (if c = '"' then !inQuotes else inQuotes) cs

/-- The operands of `write`: register, number, and an optional strobe (R100). -/
def parseWrite (cs : List Char) : Option Statement :=
  let reg := cs.takeWhile (· ≠ ',')
  match cs.drop reg.length with
  | ',' :: rest =>
    let imm := rest.takeWhile (· ≠ ',')
    (parseReg (trimSpaces reg)).bind fun r => (parseBelow (2 ^ 32) (trimSpaces imm)).bind fun v =>
      match rest.drop imm.length with
      | [] => some (.write r (BitVec.ofNat 32 v) 0b1111)
      | _ :: more =>
        match trimSpaces more with
        | 's' :: 't' :: 'r' :: 'b' :: '=' :: '0' :: 'b' :: ds =>
          if ds.length = 4 then (parseDigits 2 ds).map fun n => .write r (BitVec.ofNat 32 v) (BitVec.ofNat 4 n) else none
        | _ => none
  | _ => none

/-- The operands of `hash`: `<alg>, <bytes>`. -/
def parseHash (cs : List Char) : Option AsmLine :=
  let alg := cs.takeWhile (· ≠ ',')
  match cs.drop alg.length with
  | ',' :: rest => (parseAlg (trimSpaces alg)).bind fun a => (parseBytes (trimSpaces rest)).map fun bs => .hash a bs
  | _ => none

/-- A line given its mnemonic and the rest; none is a line that is no statement. -/
def parseOperands (mn rest : List Char) : Option AsmLine :=
  let plain (i : Instr) : Option AsmLine := if rest = [] then some (.statement (.command i)) else none
  if mn = "nop".toList then plain .nop
  else if mn = "finalize".toList then plain .finalize
  else if mn = "finalize_reset".toList then plain .finalizeReset
  else if mn = "clrerr".toList then plain .clrerr
  else if mn = "readdigest".toList then (if rest = [] then some .readdigest else none)
  else if mn = "init".toList then (parseAlg rest).map fun a => .statement (.command (.init a))
  else if mn = "feed".toList then (parseBelow 5 rest).map fun n => .statement (.command (.feed (BitVec.ofNat 3 n)))
  else if mn = "write".toList then (parseWrite rest).map .statement
  else if mn = "read".toList then (parseReg rest).map fun r => .statement (.read r)
  else if mn = "feedb".toList then (parseBytes rest).map .feedb
  else if mn = "chain".toList then (parseBytes rest).map .chain
  else if mn = "update".toList then (parseBytes rest).map .update
  else if mn = "hash".toList then parseHash rest
  else none

/-- One source line: at most one statement, its mnemonic in lower case first, and `#` the one comment sign (R100). The listings
of 95_test_vectors.md write `;` for a comment and between two statements, and `z(128)` for 128 zero bytes; R100 and R103 give
neither form, and such a line is none here (the model's choice, log entry 13). -/
def parseLine (line : List Char) : Option AsmLine :=
  let cs := trimSpaces (stripComment false line)
  let mn := cs.takeWhile (· ≠ ' ')
  if mn = [] then some .blank else parseOperands mn (trimSpaces (cs.drop mn.length))

/-- The digit of a number below 16. -/
def hexDigit (n : Nat) : Char := if n < 10 then Char.ofNat (48 + n) else Char.ofNat (87 + n)

/-- n hexadecimal digits, most significant first. -/
def hexDigits : Nat → Nat → List Char
  | 0, _ => []
  | n + 1, x => hexDigit (x / 16 ^ n % 16) :: hexDigits n x

/-- The four binary digits of a strobe. -/
def strobeDigits (strb : BitVec 4) : List Char :=
  [3, 2, 1, 0].map fun i => if strb.getLsbD i then '1' else '0'

/-- The text of a register (R64, R100). -/
def RegName.text : RegName → List Char
  | .cmd => "CMD".toList
  | .data => "DATA".toList
  | .status => "STATUS".toList
  | .errinfo => "ERRINFO".toList
  | .count i => "COUNT".toList ++ hexDigits 1 i.val
  | .digest i => "DIGEST".toList ++ if i.val < 10 then hexDigits 1 i.val else '1' :: hexDigits 1 (i.val - 10)
  | .raw off => "@0x".toList ++ hexDigits 2 off.toNat

/-- The text of an algorithm operand: its name, or the raw number 7 (R101). -/
def algText (alg : BitVec 3) : List Char :=
  match Alg.ofCode alg with
  | some a => (Alg.asmName a).toList
  | none => hexDigits 1 alg.toNat

/-- The text of a statement (R100): a model's printer. -/
def Statement.text : Statement → List Char
  | .command .nop => "nop".toList
  | .command (.init alg) => "init ".toList ++ algText alg
  | .command (.feed nb) => "feed ".toList ++ hexDigits 1 nb.toNat
  | .command .finalize => "finalize".toList
  | .command .finalizeReset => "finalize_reset".toList
  | .command .clrerr => "clrerr".toList
  | .write reg v strb =>
    "write ".toList ++ reg.text ++ ", 0x".toList ++ hexDigits 8 v.toNat
      ++ if strb = 0b1111 then [] else ", strb=0b".toList ++ strobeDigits strb
  | .read reg => "read ".toList ++ reg.text

end Sys2Proof.Machine
end

