-- ==== Sys2Proof/Machine/OneShot.lean ====
section
/-! DEFINITION. The hash of a whole message, without the streaming machine: the padded message of spec 41_padding.md R126 cut
into blocks and folded (42_block_consumer.md R140). The streaming machine is stated against it (43_streaming_padder.md R165,
R166). Nothing in `step` uses this file. -/

namespace Sys2Proof.Machine

/-- The compression of one block: the pre-block H, with the folded S merged into it (R140). -/
def compress (a : Alg) (acc : Words) (block : List Byte) : Words :=
  merge a acc ((schedule a block).foldl (roundStep a) acc)

/-- The fold over n blocks of B bytes. -/
def foldBlocks (a : Alg) : Nat → Words → List Byte → Words
  | 0, acc, _ => acc
  | n + 1, acc, bs => foldBlocks a n (compress a acc (bs.take a.blockBytes)) (bs.drop a.blockBytes)

/-- k of R126: the least k ≥ 0 such that ℓ + 1 + k + F is a multiple of B; here (B - F - 1 - ℓ mod B) mod B, kept in Nat. -/
def zeroFill (a : Alg) (len : Nat) : Nat :=
  (2 * a.blockBytes - a.footerBytes - 1 - len % a.blockBytes) % a.blockBytes

/-- What follows the last `len mod B` bytes of a message of `len` bytes: 0x80, the zero fill and the footer (R126). -/
def padding (a : Alg) (len : Nat) : List Byte :=
  0x80#8 :: zeros (zeroFill a len) ++ beBytes a.footerBytes (8 * len % 2 ^ (8 * a.footerBytes))

/-- The padded message (R126). -/
def paddedMessage (a : Alg) (m : List Byte) : List Byte := m ++ padding a m.length

/-- H after the whole padded message, from a given start. -/
def digestWords (a : Alg) (start : Words) (m : List Byte) : Words :=
  let p := paddedMessage a m
  foldBlocks a (p.length / a.blockBytes) start p

/-- The digest of a message: ToBytes of the fold from IV(alg). -/
def messageDigest (a : Alg) (m : List Byte) : List Byte := toBytes a (digestWords a (iv a) m)

end Sys2Proof.Machine
end

