-- ==== Sys2Proof/Machine/Sequencer.lean ====
section
/-! DEFINITION. The reference cycle-level sequencer (spec 70_reset_and_hazards.md R306, R307, which the spec calls
non-normative; the port's handshake is 20_memory.md R63). The transaction-level machine (Step.lean) is the normative one (R6)
and uses nothing of this file. A cycle takes the port's inputs: rst, and the transaction that req presents, if any. -/

namespace Sys2Proof.Machine

/-- The sequencer's states (R307). ROUND's index t is in the engine's consumer. -/
inductive Micro where
  | idle
  | round
  | merge
  | latch
  | ack
deriving DecidableEq, Repr

/-- What the sequencer is doing for the transaction: a FEED, or a finalize and whether it reloads the IV. -/
inductive Job where
  | feed
  | finalize (reset : Bool)
deriving DecidableEq, Repr

/-- The cycle-level machine. -/
structure Sequencer where
  engine : State
  micro : Micro
  job : Job
deriving DecidableEq, Repr

/-- The transaction's effect is in place: ack is 1 in the next cycle (R63). -/
def Sequencer.complete (q : Sequencer) (out : PortOut) (s : State) : Sequencer :=
  { q with engine := { s with out := out }, micro := .ack }

/-- Hand a block to the consumer: ROUND(t = 0) next. -/
def Sequencer.startBlock (q : Sequencer) (job : Job) (block : List Byte) (s : State) : Sequencer :=
  { q with engine := consumerStart block s, micro := .round, job := job }

/-- FEED in IDLE (R307): copy the lanes to BUF, CounterAdd; if a block is full, start it, its remainder going to BUF[0..). -/
def Sequencer.beginFeed (q : Sequencer) (d : List Byte) (cw : Word) (s : State) : Sequencer :=
  let off := counterOffset s
  let room := s.alg.blockBytes - off
  if off + d.length < s.alg.blockBytes then
    q.complete .ackWrite (counterAdd d.length cw { s with buf := writeBytes s.buf off d })
  else
    let filled := writeBytes s.buf off (d.take room)
    q.startBlock .feed (filled.toList.take s.alg.blockBytes)
      (counterAdd d.length cw { s with buf := writeBytes filled 0 (d.drop room) })

/-- Give the padder's next block to the consumer. -/
def Sequencer.nextPadBlock (q : Sequencer) (reset : Bool) (s : State) : Sequencer :=
  let r := padNext s.alg s.pad []
  q.startBlock (.finalize reset) r.out { s with pad := r.pad }

/-- FINALIZE(_RESET) in IDLE (R307): PadNew, and ROUND on the first padding block; FAULT ends it (60_exceptions.md R280). -/
def Sequencer.beginFinalize (q : Sequencer) (cw : Word) (reset : Bool) (s : State) : Sequencer :=
  match padNew s.alg (tail s) (counterFooter s) with
  | none => q.complete .ackWrite (raiseError .fault cw s)
  | some p => q.nextPadBlock reset { s with pad := p }

/-- A CMD write in IDLE (R307): the checks Legal and Allowed, then the command. -/
def Sequencer.beginCommand (q : Sequencer) (cw : Word) (s : State) : Sequencer :=
  match decode cw with
  | .error _ => q.complete .ackWrite (raiseError .illegal cw s)
  | .ok i =>
    if allowed i s.phase = false then q.complete .ackWrite (raiseError .state cw s)
    else match i with
      | .nop => q.complete .ackWrite s
      | .init alg => q.complete .ackWrite ((algOperand alg).elim s fun a => initEffect a s)
      | .feed nb => q.beginFeed (lanes nb s) cw s
      | .finalize => q.beginFinalize cw false s
      | .finalizeReset => q.beginFinalize cw true s
      | .clrerr => q.complete .ackWrite (clearErrors s)

/-- IDLE with a transaction presented. -/
def Sequencer.accept (q : Sequencer) (t : Transaction) : Sequencer :=
  let s := q.engine
  match t with
  | .read off => q.complete (.ackRead (regRead off s)) s
  | .write off v strb =>
    if writeAccepted off strb = false then q.complete .ackWrite (raiseError .access (accessInfo off) s)
    else if off = 0x04#8 then q.complete .ackWrite { s with data := v }
    else q.beginCommand v s

/-- Whether the round of this cycle is the last one, t = R-1. -/
def lastRound (s : State) : Bool :=
  match s.consumer with
  | .idle => true
  | .busy _ _ t => decide (s.alg.rounds ≤ t + 1)

/-- MERGE (R307): in FEED the transaction is done; in a finalize the padder gives its next block, or the digest is latched. -/
def Sequencer.afterMerge (q : Sequencer) (s : State) : Sequencer :=
  match q.job with
  | .feed => q.complete .ackWrite s
  | .finalize reset =>
    match s.pad with
    | .penultimateBlock _ _ | .finalBlock _ => q.nextPadBlock reset s
    | .done | .none => { q with engine := s, micro := .latch }

/-- LATCH (R307). -/
def Sequencer.latchAndFinish (q : Sequencer) (s : State) : Sequencer :=
  match q.job with
  | .feed => q.complete .ackWrite s
  | .finalize reset => q.complete .ackWrite (finishFinalize reset (latchDigest { s with pad := .none }))

/-- One clock cycle. rst has priority over every transaction, and one outstanding at the edge is abandoned (R300, R301). -/
def Sequencer.cycle (rst : Bool) (req : Option Transaction) (q : Sequencer) : Sequencer :=
  if rst then { engine := resetEdge q.engine, micro := .idle, job := .feed }
  else match q.micro with
    | .idle => match req with
      | none => { q with engine := idleCycle q.engine }
      | some t => q.accept t
    | .round => { q with engine := consumerRound q.engine, micro := if lastRound q.engine then .merge else .round }
    | .merge => q.afterMerge (consumerMerge q.engine)
    | .latch => q.latchAndFinish q.engine
    | .ack => { q with engine := idleCycle q.engine, micro := .idle }

/-- n cycles with one transaction held at the port (R63: the host holds it until ack) and no reset. -/
def Sequencer.cycles (t : Transaction) : Nat → Sequencer → Sequencer
  | 0, q => q
  | n + 1, q => Sequencer.cycles t n (q.cycle false (some t))

/-! ### Latency (R306) -/

/-- The blocks a finalize hands to the consumer: one if COUNT mod B ≤ B - F - 1, else two (43_streaming_padder.md R164). -/
def finalizeBlocks (s : State) : Nat := if counterOffset s + 1 + s.alg.footerBytes ≤ s.alg.blockBytes then 1 else 2

/-- The row of a command that runs. -/
def commandClass (i : Instr) (s : State) : LatencyClass :=
  match i with
  | .nop | .clrerr | .init _ => .plainCommand
  | .feed nb => if counterOffset s + nb.toNat < s.alg.blockBytes then .feedNoBlock else .feedBlock
  | .finalize | .finalizeReset => .finalize (finalizeBlocks s)

/-- The row of R306 a transaction falls under. -/
def latencyClass (t : Transaction) (s : State) : LatencyClass :=
  match t with
  | .read _ => .read
  | .write off v strb =>
    if writeAccepted off strb = false ∨ off = 0x04#8 then .plainWrite
    else match decode v with
      | .error _ => .plainCommand
      | .ok i => if allowed i s.phase then commandClass i s else .plainCommand

/-- T_cmd(c) of a transaction presented in a state (R306): the open parameter at the transaction's signals. A read drives no
wdata and no wstrb, and is given zeros. -/
def transactionLatency (t : Transaction) (s : State) : Nat :=
  match t with
  | .read off => Config.tCmd false off 0 0 (latencyClass t s) s.alg
  | .write off v strb => Config.tCmd true off v strb (latencyClass t s) s.alg

/-- The reference T_round: one cycle a round and one for the merge (R306). -/
def referenceTRound (a : Alg) : Nat := a.rounds + 1

/-- The reference T_cmd (R306). -/
def referenceTCmd (c : LatencyClass) (a : Alg) : Nat :=
  match c with
  | .read | .plainWrite | .plainCommand | .feedNoBlock => 1
  | .feedBlock => 1 + referenceTRound a
  | .finalize blocks => 1 + blocks * referenceTRound a + 1

end Sys2Proof.Machine
end

