-- ==== Sys2Proof/Safety.lean ====
section
/-! DEFINITION. What counts as a good state and a good run, in the terms the statements use: the invariants of spec 10_state.md
R34 and R43, agreement up to storage that holds no defined value (R24, R25), and feeding a byte string (43_streaming_padder.md
R165). -/

namespace Sys2Proof.Machine

/-- The invariants of every transaction boundary. Two clauses of R43 hold by the types: PHASE is one of its four values, and
ALG is not 7. `code_produced` is R275 (codes 6..15 are never produced); the last two are R34. -/
structure State.Inv (s : State) : Prop where
  /-- R43.1: COUNT < 2^W(ALG); COUNT[127:W] = 0 is the same fact. -/
  count_fits : s.count.toNat < 2 ^ s.alg.counterBits
  /-- R43.3 -/
  uninit_empty : s.phase = .uninit → s.count = 0 ∧ s.dvalid = false ∧ s.digest = Vector.replicate 64 0
  /-- R43.4 -/
  invalid_zero : s.dvalid = false → s.digest = Vector.replicate 64 0
  /-- R43.5 -/
  beyond_out_zero : s.dvalid = true → ∀ i : Fin 64, s.alg.outBytes ≤ i.val → s.digest[i] = 0
  /-- R43.6 -/
  no_error_clear : s.ecode = 0 →
    s.errinfo = 0 ∧ s.eIllegal = false ∧ s.eState = false ∧ s.eAccess = false ∧ s.lenOvf = false
  /-- R275 -/
  code_produced : s.ecode.toNat ≤ 5
  /-- R34 -/
  pad_none : s.pad = .none
  /-- R34 -/
  consumer_idle : s.consumer = .idle

/-- Two states that differ at most in storage that holds no defined value. BUF past the tail and the cells and halves of cells
an algorithm does not use have none (R24, R25); with no open message the whole of BUF and H is dead, since INIT writes H and
makes the tail empty before any rule reads them. -/
structure Agree (s t : State) : Prop where
  phase : s.phase = t.phase
  alg : s.alg = t.alg
  count : s.count = t.count
  data : s.data = t.data
  digest : s.digest = t.digest
  dvalid : s.dvalid = t.dvalid
  eIllegal : s.eIllegal = t.eIllegal
  eState : s.eState = t.eState
  eAccess : s.eAccess = t.eAccess
  lenOvf : s.lenOvf = t.lenOvf
  ecode : s.ecode = t.ecode
  errinfo : s.errinfo = t.errinfo
  pad : s.pad = t.pad
  consumer : s.consumer = t.consumer
  out : s.out = t.out
  port : s.port = t.port
  live_acc : s.phase = .absorb → liveWords s.alg s.acc = liveWords t.alg t.acc
  live_tail : s.phase = .absorb → tail s = tail t

/-- What R165 says is the same however a byte string is fed: PHASE, ALG, COUNT, H, the tail, D, DVALID and the four flags. -/
structure SameMessage (s t : State) : Prop where
  phase : s.phase = t.phase
  alg : s.alg = t.alg
  count : s.count = t.count
  acc : liveWords s.alg s.acc = liveWords t.alg t.acc
  tail : tail s = tail t
  digest : s.digest = t.digest
  dvalid : s.dvalid = t.dvalid
  eIllegal : s.eIllegal = t.eIllegal
  eState : s.eState = t.eState
  eAccess : s.eAccess = t.eAccess
  lenOvf : s.lenOvf = t.lenOvf

/-- One FEED of a sequence: the word the host writes to DATA first, and NB. -/
structure FeedItem where
  word : Word
  nb : BitVec 3
deriving DecidableEq, Repr

/-- The bytes an item feeds: the first NB lanes of its word (20_memory.md R70). -/
def FeedItem.bytes (x : FeedItem) : List Byte :=
  [x.word.extractLsb' 24 8, x.word.extractLsb' 16 8, x.word.extractLsb' 8 8, x.word.extractLsb' 0 8].take x.nb.toNat

/-- The two statements of an item: write DATA, and FEED. -/
def FeedItem.statements (x : FeedItem) : List Statement := feedChunk x.word x.nb

/-- FEED accepts 0..4 bytes (30_encoding.md R94). -/
def FeedItem.ok (x : FeedItem) : Bool := nbFieldOk x.nb

/-- The bytes of a sequence of FEEDs, concatenated in order. -/
def feedBytes (xs : List FeedItem) : List Byte := xs.flatMap FeedItem.bytes

/-- The statements of a sequence of FEEDs. -/
def feedStatements (xs : List FeedItem) : List Statement := xs.flatMap FeedItem.statements

/-- The host performs a list of statements from a state, and nothing follows them at the port. -/
def perform (ss : List Statement) (s : State) : Host.Outcome State Fault Refusal :=
  Sys2Proof.core.run ss.length { s with port := hostEvents ss }

end Sys2Proof.Machine
end

