-- ==== Sys2Proof/Certificates/Slice0/Obligations.lean ====
section
/-! DEFINITION. The statements for the provers. Each docstring names the rule of spec/ it rests on. The states quantified over
are all states, reachable or not, unless a hypothesis says otherwise. -/

open Sys2Proof Sys2Proof.Machine

/-! ### Words used by the statements -/

/-- The next host event is a write of `cw` to CMD with all four strobes, and `rest` follows it (20_memory.md R67). -/
def Sys2Proof.Machine.CmdWrite (s : State) (cw : Word) (rest : List HostEvent) : Prop :=
  s.port = .txn (.write 0x00#8 cw 0b1111#4) :: rest

/-- The causes of ILLEGAL, as 60_exceptions.md R271 lists them. -/
def Sys2Proof.Machine.IllegalCause (cw : Word) : Prop :=
  6 ≤ (cw.extractLsb' 0 4).toNat ∨
  (cw.extractLsb' 7 1 ≠ 0 ∨ cw.extractLsb' 11 21 ≠ 0) ∨
  (cw.extractLsb' 0 4 = 1 ∧ cw.extractLsb' 4 3 = 7) ∨
  (cw.extractLsb' 4 3 ≠ 0 ∧ cw.extractLsb' 0 4 ≠ 1) ∨
  (cw.extractLsb' 0 4 = 2 ∧ 5 ≤ (cw.extractLsb' 8 3).toNat) ∨
  (cw.extractLsb' 8 3 ≠ 0 ∧ cw.extractLsb' 0 4 ≠ 2)

/-- The entries of 47_commands.md R248's matrix that say STATE. -/
def Sys2Proof.Machine.PhaseRefuses (i : Instr) (p : Phase) : Prop :=
  match i with
  | .nop | .clrerr => False
  | .init _ => p = .fault
  | .feed _ | .finalize | .finalizeReset => p ≠ .absorb

/-- The sixteen legal words and their commands, as 30_encoding.md R98 lists them. -/
def Sys2Proof.Machine.legalWordTable : List (Word × Instr) :=
  [(0x00000000, .nop), (0x00000001, .init 0), (0x00000011, .init 1), (0x00000021, .init 2), (0x00000031, .init 3),
    (0x00000041, .init 4), (0x00000051, .init 5), (0x00000061, .init 6)]
  ++ [(0x00000002, .feed 0), (0x00000102, .feed 1), (0x00000202, .feed 2), (0x00000302, .feed 3), (0x00000402, .feed 4),
    (0x00000003, .finalize), (0x00000004, .finalizeReset), (0x00000005, .clrerr)]

/-- The length ceiling of 60_exceptions.md R274, computed without wrap. -/
def Sys2Proof.Machine.PassesCeiling (n : Nat) (s : State) : Prop := 2 ^ (s.alg.counterBits - 3) ≤ s.count.toNat + n

/-- H after the padded tail, folded from the H of the state (43_streaming_padder.md R163, 41_padding.md R126). -/
def Sys2Proof.Machine.finalizedAcc (s : State) : Words :=
  let p := tail s ++ padding s.alg s.count.toNat
  foldBlocks s.alg (p.length / s.alg.blockBytes) s.acc p

/-! ### Encoding -/

/-- 30_encoding.md R91 to R99: a word decodes to a command exactly when the command is well formed and the word is its
encoding, so decoding inverts encoding at every operand value and no word has two meanings. -/
def Obligations.DecodeEncodeAgree : Prop :=
  ∀ (cw : Word) (i : Instr), decode cw = .ok i ↔ i.wellFormed = true ∧ encode i = cw

/-- 30_encoding.md R98: exactly sixteen words are legal, and each is the command the table gives. -/
def Obligations.ExactlySixteenWordsAreLegal : Prop :=
  legalWordTable.length = 16 ∧ (legalWordTable.map Prod.fst).Nodup ∧
    (∀ cw : Word, legal cw = true ↔ cw ∈ legalWordTable.map Prod.fst) ∧
    ∀ p ∈ legalWordTable, decode p.1 = .ok p.2

/-- 30_encoding.md R96, R99: the decoder rejects exactly the words that are not legal. -/
def Obligations.DecodeRejectsExactlyIllegalWords : Prop :=
  ∀ cw : Word, (∃ e, decode cw = .error e) ↔ legal cw = false

/-- opcode_table.json and 30_encoding.md R98: words written out from the table, and illegal neighbours. -/
def Obligations.OpcodeTableWordsDecode : Prop :=
  decodeTableWord 32 0x00000000 = some .nop ∧ decodeTableWord 32 0x00000011 = some (.init 1) ∧
    decodeTableWord 32 0x00000061 = some (.init 6) ∧ decodeTableWord 32 0x00000102 = some (.feed 1) ∧
    decodeTableWord 32 0x00000402 = some (.feed 4) ∧ decodeTableWord 32 0x00000003 = some .finalize ∧
    decodeTableWord 32 0x00000004 = some .finalizeReset ∧ decodeTableWord 32 0x00000005 = some .clrerr ∧
    decodeTableWord 32 0x00000071 = none ∧ decodeTableWord 32 0x00000502 = none ∧ decodeTableWord 32 0x00000006 = none

/-! ### The step and the host port -/

/-- 47_commands.md R240, 20_memory.md R67: a step on a write of a command's word to CMD is exec of the command, at the state
with the transaction taken from the port and acknowledged; and `withFetchWord` makes the very next step run its word. (That
the host's transactions stand in the state's `port` is the model's choice, log entry 3.) -/
def Obligations.StepRunsDecodedCommand : Prop :=
  (∀ (s : State) (cw : Word) (i : Instr) (rest : List HostEvent), CmdWrite s cw rest → decode cw = .ok i →
    step s = exec i { s with port := rest, out := .ackWrite }) ∧
  ∀ (s : State) (w : Nat) (i : Instr), decodeTableWord 32 w = some i →
    step (s.withFetchWord 32 w) = exec i { s with out := .ackWrite }

/-- 20_memory.md R63, R75, 60_exceptions.md R270, 00_scope.md R7: every step ends in a next state, and with no host event the
engine does nothing but hold ack at 0. (That no transaction stops the machine is the model's deduction, log entry 8; that a step
with no host event is an idle step is the model's choice, log entry 3.) -/
def Obligations.EveryStepCompletes : Prop :=
  (∀ s : State, ∃ t, step s = .next t) ∧
  ∀ s : State, s.port = [] → step s = .next { s with out := .noAck }

/-- 20_memory.md R66: what a read returns, at every offset; and it changes nothing but the port's outputs. -/
def Obligations.ReadReturnsRegister : Prop :=
  ∀ (s : State) (off : BitVec 8) (rest : List HostEvent), s.port = .txn (.read off) :: rest →
    ∃ v : Word, step s = .next { s with port := rest, out := .ackRead v } ∧
      (off.toNat % 4 ≠ 0 → v = 0) ∧
      (off = 0x00 → v = 0) ∧
      (off = 0x04 → v = s.data) ∧
      (off = 0x08 → v = statusWord s) ∧
      (off = 0x0C → v = s.errinfo) ∧
      (∀ i : Fin 4, off.toNat = 0x10 + 4 * i.val → v = s.count.extractLsb' (32 * i.val) 32) ∧
      (∀ i : Fin 16, off.toNat = 0x20 + 4 * i.val →
        v = s.digest[4 * i.val] ++ s.digest[4 * i.val + 1] ++ s.digest[4 * i.val + 2] ++ s.digest[4 * i.val + 3]) ∧
      (0x60 ≤ off.toNat → v = 0)

/-- 10_state.md R35: the fields of STATUS, each a live view of its element, its reserved bits, and its reset value; a write to
it is ignored and sets E_ACCESS. -/
def Obligations.StatusFields : Prop :=
  (∀ s : State,
    (statusWord s).extractLsb' 0 3 = s.phase.code ∧
    (statusWord s).getLsbD 3 = s.dvalid ∧
    (statusWord s).extractLsb' 4 3 = s.alg.code ∧
    (statusWord s).getLsbD 7 = false ∧
    (statusWord s).getLsbD 8 = s.eIllegal ∧
    (statusWord s).getLsbD 9 = s.eState ∧
    (statusWord s).getLsbD 10 = s.eAccess ∧
    (statusWord s).getLsbD 11 = s.lenOvf ∧
    (statusWord s).extractLsb' 12 4 = s.ecode ∧
    (statusWord s).extractLsb' 16 16 = 0) ∧
  statusWord State.reset = 0 ∧
  ∀ (s : State) (v : Word) (strb : BitVec 4) (rest : List HostEvent), s.port = .txn (.write 0x08#8 v strb) :: rest →
    step s = .next { s with port := rest, out := .ackWrite, eAccess := true,
                            ecode := if s.ecode = 0 then 3 else s.ecode, errinfo := if s.ecode = 0 then 0x108 else s.errinfo }

/-- 20_memory.md R67, 10_state.md R26: a write of DATA stores the word and does nothing else; and only a write of DATA or a
reset changes DATA. -/
def Obligations.DataRegisterWrites : Prop :=
  (∀ (s : State) (v : Word) (rest : List HostEvent), s.port = .txn (.write 0x04#8 v 0b1111#4) :: rest →
    step s = .next { s with port := rest, out := .ackWrite, data := v }) ∧
  ∀ s t : State, step s = .next t → t.data ≠ s.data →
    (∃ v rest, s.port = .txn (.write 0x04#8 v 0b1111#4) :: rest ∧ t.data = v) ∨ ∃ o rest, s.port = .rst o :: rest

/-- 70_reset_and_hazards.md R300 to R302: after a reset edge, with or without a transaction outstanding, every element has its
reset value, and every offset reads 0. BUF, whose value the spec leaves unspecified, has the model's choice (log entry 1), so no clause speaks of it. -/
def Obligations.ResetEdgeResets : Prop :=
  ∀ (s : State) (o : Option Transaction) (rest : List HostEvent), s.port = .rst o :: rest →
    ∃ t, step s = .next t ∧ t.phase = .uninit ∧ t.alg = .sha1 ∧ t.count = 0 ∧ t.acc = ⟨0, 0, 0, 0, 0, 0, 0, 0⟩ ∧ t.data = 0 ∧
      (∀ i : Fin 64, t.digest[i] = 0) ∧ t.dvalid = false ∧ t.eIllegal = false ∧ t.eState = false ∧ t.eAccess = false ∧
      t.lenOvf = false ∧ t.ecode = 0 ∧ t.errinfo = 0 ∧ t.pad = .none ∧ t.out = .noAck ∧ t.port = rest ∧
      ∀ off : BitVec 8, regRead off t = 0

/-- 20_memory.md R60, R67, R68, 00_scope.md R12, 60_exceptions.md R273: the platform's accesses of the window, whatever
ENGINE_BASE is. A word access is RegRead or RegWrite with all strobes at its offset. A narrower load is a read of a register word
and changes nothing; a narrower store has a partial strobe, and is refused with ACCESS. An access outside the window is no
transaction. (Log entry 17, the model's choice: a narrower access is one transaction, presented within the word of its first
byte; and an access of no bytes or of more than four, which the engine does not serve, is none.) -/
def Obligations.WindowMapsToPort : Prop :=
  (∀ (off : BitVec 8) (v : Word), memRead (Config.engineBase + off.toNat) 4 = some (.read off) ∧
    memWrite (Config.engineBase + off.toNat) 4 v = some (.write off v 0b1111#4)) ∧
  (∀ (off : BitVec 8) (n : Nat), 1 ≤ n → n < 4 → ∃ p : BitVec 8, p.toNat / 4 = off.toNat / 4 ∧
    memRead (Config.engineBase + off.toNat) n = some (.read p) ∧
    ∀ s : State, transact (.read p) s = .next { s with out := .ackRead (regRead p s) }) ∧
  (∀ (off : BitVec 8) (n : Nat) (v : Word), 1 ≤ n → n < 4 →
    ∃ (p : BitVec 8) (bus : Word) (strb : BitVec 4), p.toNat / 4 = off.toNat / 4 ∧ strb ≠ 0b1111#4 ∧
      memWrite (Config.engineBase + off.toNat) n v = some (.write p bus strb) ∧
      ∀ s : State, transact (.write p bus strb) s = .next { s with
        out := .ackWrite, eAccess := true, ecode := if s.ecode = 0 then 3 else s.ecode,
        errinfo := if s.ecode = 0 then 0x100#32 ||| p.setWidth 32 else s.errinfo }) ∧
  (∀ (addr n : Nat) (v : Word), (addr < Config.engineBase ∨ Config.engineBase + 256 ≤ addr) →
    memRead addr n = none ∧ memWrite addr n v = none) ∧
  ∀ (addr n : Nat) (v : Word), (n = 0 ∨ 4 < n) → memRead addr n = none ∧ memWrite addr n v = none

/-! ### The commands -/

/-- The state after a CMD write of `cw` that raises ILLEGAL (60_exceptions.md R271). -/
def Sys2Proof.Machine.afterIllegal (cw : Word) (rest : List HostEvent) (s : State) : State :=
  { s with
    port := rest, out := .ackWrite, eIllegal := true
    ecode := if s.ecode = 0 then 1 else s.ecode, errinfo := if s.ecode = 0 then cw else s.errinfo }

/-- 47_commands.md R246: NOP, the word 0, in any state is the same state, and a write of zero to CMD only takes the event and
sets ack; a word with OP = 0 and any other bit raises ILLEGAL. -/
def Obligations.NopHasNoEffect : Prop :=
  (∀ s : State, exec .nop s = .next s) ∧ encode .nop = 0x00000000#32 ∧
    (∀ (s : State) (rest : List HostEvent), CmdWrite s 0x00000000#32 rest →
      step s = .next { s with port := rest, out := .ackWrite }) ∧
    ∀ (s : State) (cw : Word) (rest : List HostEvent), CmdWrite s cw rest → cw.extractLsb' 0 4 = 0 → cw ≠ 0 →
      step s = .next (afterIllegal cw rest s)

/-- 47_commands.md R245: CLRERR in any phase clears the four flags, ECODE and ERRINFO and changes nothing else; its word with
any other bit raises ILLEGAL and clears nothing. -/
def Obligations.ClrerrClearsErrors : Prop :=
  (∀ s : State, exec .clrerr s = .next { s with
    eIllegal := false, eState := false, eAccess := false, lenOvf := false, ecode := 0, errinfo := 0 }) ∧
  encode .clrerr = 0x00000005#32 ∧
  ∀ (s : State) (cw : Word) (rest : List HostEvent), CmdWrite s cw rest → cw.extractLsb' 0 4 = 5 → cw ≠ 0x00000005#32 →
    step s = .next (afterIllegal cw rest s)

/-- 47_commands.md R241: INIT outside FAULT opens a message of its algorithm: H is IV(alg), COUNT 0, D zeros, DVALID 0, PHASE
ABSORB, and nothing else changes. H's cells outside the algorithm's words are left (log entry 2, the model's choice). -/
def Obligations.InitOpensMessage : Prop :=
  ∀ (a : Alg) (s : State), s.phase ≠ .fault →
    exec (.init a.code) s = .next { s with
      alg := a, acc := putWords a s.acc (iv a), count := 0, digest := Vector.replicate 64 0, dvalid := false, phase := .absorb } ∧
    liveWords a (putWords a s.acc (iv a)) = liveWords a (iv a)

/-- 47_commands.md R242, 43_streaming_padder.md R160 to R162, 40_counter.md R111: FEED of nb bytes in ABSORB takes the first nb
lanes of DATA. Short of a block they join the tail; at a block, H is compressed with it once and the rest is the tail. COUNT
advances by nb modulo 2^W; LEN_OVF, ECODE and ERRINFO by the ceiling; nothing else changes, and no other byte of BUF. (`compress` keeps H's storage
outside the algorithm's words: log entry 2, the model's choice.) -/
def Obligations.FeedAbsorbsLanes : Prop :=
  ∀ (nb : BitVec 3) (s : State), s.phase = .absorb → nb.toNat ≤ 4 →
    ∃ t, exec (.feed nb) s = .next t ∧
      (let d := [s.data.extractLsb' 24 8, s.data.extractLsb' 16 8, s.data.extractLsb' 8 8, s.data.extractLsb' 0 8].take nb.toNat
       let off := s.count.toNat % s.alg.blockBytes
       let bs := tail s ++ d
       (off + nb.toNat < s.alg.blockBytes → tail t = bs ∧ t.acc = s.acc ∧ t.consumer = s.consumer ∧
          ∀ i : Fin 128, (i.val < off ∨ off + nb.toNat ≤ i.val) → t.buf[i] = s.buf[i]) ∧
       (s.alg.blockBytes ≤ off + nb.toNat → tail t = bs.drop s.alg.blockBytes ∧
          t.acc = compress s.alg s.acc (bs.take s.alg.blockBytes) ∧ t.consumer = .idle ∧
          ∀ i : Fin 128, (off + nb.toNat ≤ i.val + s.alg.blockBytes ∧ i.val < off ∨ s.alg.blockBytes ≤ i.val) →
            t.buf[i] = s.buf[i])) ∧
      t.count.toNat = (s.count.toNat + nb.toNat) % 2 ^ s.alg.counterBits ∧
      (PassesCeiling nb.toNat s → t.lenOvf = true ∧ t.ecode = (if s.ecode = 0 then 4 else s.ecode) ∧
        t.errinfo = (if s.ecode = 0 then encode (.feed nb) else s.errinfo)) ∧
      (¬ PassesCeiling nb.toNat s → t.lenOvf = s.lenOvf ∧ t.ecode = s.ecode ∧ t.errinfo = s.errinfo) ∧
      t = { s with buf := t.buf, acc := t.acc, consumer := t.consumer, count := t.count, lenOvf := t.lenOvf,
                   ecode := t.ecode, errinfo := t.errinfo }

/-- 47_commands.md R243, 43_streaming_padder.md R163: FINALIZE in ABSORB folds the padded tail into H, latches ToBytes(H) in D,
sets DVALID and closes the message; COUNT and everything else stay. (H's storage outside the algorithm's words is kept: log
entry 2, the model's choice.) -/
def Obligations.FinalizeLatchesDigest : Prop :=
  ∀ s : State, s.phase = .absorb →
    exec .finalize s = .next { s with
      acc := finalizedAcc s, digest := bankOf (toBytes s.alg (finalizedAcc s)), dvalid := true, phase := .done,
      pad := .none, consumer := .idle }

/-- 47_commands.md R244, 43_streaming_padder.md R163, R167: FINALIZE_RESET in ABSORB latches the same digest, then reloads
IV(ALG), zeroes COUNT and stays in ABSORB; everything else stays. (H's storage outside the algorithm's words is kept: log entry
2, the model's choice.) -/
def Obligations.FinalizeResetLatchesAndReopens : Prop :=
  ∀ s : State, s.phase = .absorb →
    exec .finalizeReset s = .next { s with
      acc := putWords s.alg (finalizedAcc s) (iv s.alg), count := 0, digest := bankOf (toBytes s.alg (finalizedAcc s)),
      dvalid := true, phase := .absorb, pad := .none, consumer := .idle }

/-- 30_encoding.md R93, R94, 60_exceptions.md R271: INIT with alg = 7 and FEED with nb ≥ 5 raise ILLEGAL in every phase, with
their own words, and change nothing else. (That the ill-formed terms run this way is the model's choice, log entry 7.) -/
def Obligations.IllegalOperandsRaiseIllegal : Prop :=
  (∀ s : State, exec (.init 7) s = .next { s with
    eIllegal := true, ecode := if s.ecode = 0 then 1 else s.ecode, errinfo := if s.ecode = 0 then 0x00000071 else s.errinfo }) ∧
  ∀ (nb : BitVec 3) (s : State), 5 ≤ nb.toNat → exec (.feed nb) s = .next { s with
    eIllegal := true, ecode := if s.ecode = 0 then 1 else s.ecode,
    errinfo := if s.ecode = 0 then BitVec.ofNat 32 (0x2 + 0x100 * nb.toNat) else s.errinfo }

/-- 47_commands.md R248: a legal command in a phase whose entry says STATE raises STATE and changes nothing else; in a phase
whose entry says ok it does not touch E_STATE, unless it is CLRERR. -/
def Obligations.PhaseMatrix : Prop :=
  (∀ (i : Instr) (s : State), i.wellFormed = true → PhaseRefuses i s.phase → exec i s = .next { s with
    eState := true, ecode := if s.ecode = 0 then 2 else s.ecode, errinfo := if s.ecode = 0 then encode i else s.errinfo }) ∧
  ∀ (i : Instr) (s : State), i.wellFormed = true → ¬ PhaseRefuses i s.phase → i ≠ .clrerr →
    ∃ t, exec i s = .next t ∧ t.eState = s.eState

/-! ### Errors -/

/-- 60_exceptions.md R271: a CMD write with one of the causes raises ILLEGAL and does nothing else, and nothing else sets
E_ILLEGAL. -/
def Obligations.IllegalRaisedExactly : Prop :=
  (∀ (s : State) (cw : Word) (rest : List HostEvent), CmdWrite s cw rest → IllegalCause cw →
    step s = .next (afterIllegal cw rest s)) ∧
  ∀ s t : State, step s = .next t → s.eIllegal = false → t.eIllegal = true →
    ∃ cw rest, CmdWrite s cw rest ∧ IllegalCause cw

/-- 60_exceptions.md R272: a legal command in a phase that refuses it raises STATE and does nothing else, and nothing else sets
E_STATE. -/
def Obligations.StateErrorRaisedExactly : Prop :=
  (∀ (s : State) (cw : Word) (i : Instr) (rest : List HostEvent), CmdWrite s cw rest → decode cw = .ok i →
    PhaseRefuses i s.phase →
    step s = .next { s with port := rest, out := .ackWrite, eState := true,
                            ecode := if s.ecode = 0 then 2 else s.ecode, errinfo := if s.ecode = 0 then cw else s.errinfo }) ∧
  ∀ s t : State, step s = .next t → s.eState = false → t.eState = true →
    ∃ cw i rest, CmdWrite s cw rest ∧ decode cw = .ok i ∧ PhaseRefuses i s.phase

/-- 60_exceptions.md R273: a write at a misaligned offset, with a partial strobe, or to any offset but CMD and DATA is dropped
whole and raises ACCESS with 0x100 | off, and nothing else sets E_ACCESS. -/
def Obligations.AccessErrorRaisedExactly : Prop :=
  (∀ (s : State) (off : BitVec 8) (v : Word) (strb : BitVec 4) (rest : List HostEvent),
    s.port = .txn (.write off v strb) :: rest →
    (off.toNat % 4 ≠ 0 ∨ strb ≠ 0b1111#4 ∨ 0x08 ≤ off.toNat) →
    step s = .next { s with port := rest, out := .ackWrite, eAccess := true,
                            ecode := if s.ecode = 0 then 3 else s.ecode,
                            errinfo := if s.ecode = 0 then BitVec.ofNat 32 (0x100 + off.toNat) else s.errinfo }) ∧
  ∀ s t : State, step s = .next t → s.eAccess = false → t.eAccess = true →
    ∃ off v strb rest, s.port = .txn (.write off v strb) :: rest ∧ (off.toNat % 4 ≠ 0 ∨ strb ≠ 0b1111#4 ∨ 0x08 ≤ off.toNat)

/-- 60_exceptions.md R274, 40_counter.md R111: only a FEED in ABSORB that passes the ceiling sets LEN_OVF; it is a warning, and
the FEED completes, its count wrapped. (FeedAbsorbsLanes says the rest of its effect, which is the same with the warning.) -/
def Obligations.LengthWarningOnlyFromFeed : Prop :=
  (∀ s t : State, step s = .next t → s.lenOvf = false → t.lenOvf = true →
    ∃ nb rest, CmdWrite s (encode (.feed nb)) rest ∧ s.phase = .absorb ∧ PassesCeiling nb.toNat s) ∧
  ∀ (nb : BitVec 3) (s : State), s.phase = .absorb → nb.toNat ≤ 4 → PassesCeiling nb.toNat s →
    ∃ t, exec (.feed nb) s = .next t ∧ t.phase = .absorb ∧ t.lenOvf = true ∧
      t.count.toNat = (s.count.toNat + nb.toNat) % 2 ^ s.alg.counterBits

/-- 60_exceptions.md R277, R280: one host transaction raises at most one error: at most one sticky flag is raised, and a step
that raises one does not enter FAULT, the one error without a flag. -/
def Obligations.AtMostOneErrorPerTransaction : Prop :=
  ∀ s t : State, step s = .next t →
    ([(s.eIllegal, t.eIllegal), (s.eState, t.eState), (s.eAccess, t.eAccess), (s.lenOvf, t.lenOvf)].filter
      fun p => !p.1 && p.2).length ≤ 1 ∧
    (s.eIllegal = false ∧ t.eIllegal = true ∨ s.eState = false ∧ t.eState = true ∨ s.eAccess = false ∧ t.eAccess = true ∨
      s.lenOvf = false ∧ t.lenOvf = true → t.phase = .fault → s.phase = .fault)

/-- 60_exceptions.md R276, R281: while an error is recorded, ECODE and ERRINFO keep it, until CLRERR or reset. -/
def Obligations.FirstErrorIsKept : Prop :=
  ∀ s t : State, step s = .next t → s.ecode ≠ 0 →
    (t.ecode = s.ecode ∧ t.errinfo = s.errinfo) ∨ (∃ rest, CmdWrite s 0x00000005#32 rest) ∨ ∃ o rest, s.port = .rst o :: rest

/-- 10_state.md R29, R42: only CLRERR and reset clear a sticky flag. -/
def Obligations.StickyFlagsClearedOnlyByClrerrOrReset : Prop :=
  ∀ s t : State, step s = .next t →
    (s.eIllegal = true ∧ t.eIllegal = false ∨ s.eState = true ∧ t.eState = false ∨
      s.eAccess = true ∧ t.eAccess = false ∨ s.lenOvf = true ∧ t.lenOvf = false) →
    (∃ rest, CmdWrite s 0x00000005#32 rest) ∨ ∃ o rest, s.port = .rst o :: rest

/-! ### Who writes what -/

/-- 10_state.md R22: INIT writes ALG, and nothing else does (but reset). -/
def Obligations.OnlyInitWritesAlg : Prop :=
  ∀ s t : State, step s = .next t → t.alg ≠ s.alg →
    (∃ rest, CmdWrite s (encode (.init t.alg.code)) rest) ∨ ∃ o rest, s.port = .rst o :: rest

/-- 20_memory.md R74, 10_state.md R23, R27: only a CMD write or reset changes COUNT or D. -/
def Obligations.OnlyCommandsChangeCountOrDigest : Prop :=
  ∀ s t : State, step s = .next t → (t.count ≠ s.count ∨ t.digest ≠ s.digest) →
    (∃ cw rest, CmdWrite s cw rest) ∨ ∃ o rest, s.port = .rst o :: rest

/-- 10_state.md R28, R42: DVALID is set by FINALIZE and FINALIZE_RESET in ABSORB and cleared by INIT and reset, and by nothing
else. -/
def Obligations.DvalidSetAndCleared : Prop :=
  ∀ s t : State, step s = .next t →
    (s.dvalid = false → t.dvalid = true → s.phase = .absorb ∧
      ((∃ rest, CmdWrite s (encode .finalize) rest) ∨ ∃ rest, CmdWrite s (encode .finalizeReset) rest)) ∧
    (s.dvalid = true → t.dvalid = false →
      (∃ a rest, CmdWrite s (encode (.init a)) rest) ∨ ∃ o rest, s.port = .rst o :: rest)

/-- 47_commands.md R249: every change of PHASE is one of the transitions listed. -/
def Obligations.PhaseTransitions : Prop :=
  ∀ s t : State, step s = .next t →
    t.phase = s.phase ∨
    (∃ o rest, s.port = .rst o :: rest ∧ t.phase = .uninit) ∨
    (∃ a rest, CmdWrite s (encode (.init a)) rest ∧ s.phase ≠ .fault ∧ t.phase = .absorb) ∨
    (∃ rest, CmdWrite s (encode .finalize) rest ∧ s.phase = .absorb ∧ t.phase = .done)

/-- 60_exceptions.md R280: FAULT is never entered; only reset leaves it. -/
def Obligations.FaultNeverEnteredAndOnlyResetLeavesIt : Prop :=
  ∀ s t : State, step s = .next t →
    (s.phase ≠ .fault → t.phase ≠ .fault) ∧ (s.phase = .fault → t.phase ≠ .fault → ∃ o rest, s.port = .rst o :: rest)

/-- 41_padding.md R121, 60_exceptions.md R280: a finalize of a tail of B bytes or more enters FAULT, records code 5, and
changes nothing else. No step can give it such a tail. -/
def Obligations.OversizeTailEntersFault : Prop :=
  (∀ (tl footer : List Byte) (cw : Word) (reset : Bool) (s : State), s.alg.blockBytes ≤ tl.length →
    finalizeFrom tl footer cw reset s = { s with
      phase := .fault, ecode := if s.ecode = 0 then 5 else s.ecode, errinfo := if s.ecode = 0 then cw else s.errinfo }) ∧
  ∀ s : State, (tail s).length < s.alg.blockBytes

/-! ### Counter and padding -/

/-- 40_counter.md R112: CounterOffset is COUNT mod B, which is COUNT[5:0] for B = 64 and COUNT[6:0] for B = 128, and less than
B. -/
def Obligations.CounterOffsetIsLowBits : Prop :=
  ∀ s : State, counterOffset s = s.count.toNat % s.alg.blockBytes ∧ counterOffset s < s.alg.blockBytes ∧
    (s.alg.blockBytes = 64 → counterOffset s = (s.count.extractLsb' 0 6).toNat) ∧
    (s.alg.blockBytes = 128 → counterOffset s = (s.count.extractLsb' 0 7).toNat)

/-- 40_counter.md R113: the footer is F bytes, the big-endian bit length modulo 2^(8F). -/
def Obligations.FooterIsBitLength : Prop :=
  ∀ s : State, (counterFooter s).length = s.alg.footerBytes ∧
    beNat (counterFooter s) = 8 * s.count.toNat % 2 ^ (8 * s.alg.footerBytes)

/-- 40_counter.md R114: the wrap-around keeps the offset right. -/
def Obligations.WrapKeepsOffset : Prop :=
  ∀ (a : Alg) (count n : Nat), (count + n) % 2 ^ a.counterBits % a.blockBytes = (count + n) % a.blockBytes

/-- 41_padding.md R122: PadNew's construction, in both cases. -/
def Obligations.PadNewConstruction : Prop :=
  ∀ (a : Alg) (tl footer : List Byte), tl.length < a.blockBytes → footer.length = a.footerBytes →
    (tl.length + 1 + a.footerBytes ≤ a.blockBytes →
      padNew a tl footer =
        some (.finalBlock (tl ++ [0x80] ++ zeros (a.blockBytes - a.footerBytes - 1 - tl.length) ++ footer))) ∧
    (a.blockBytes < tl.length + 1 + a.footerBytes →
      padNew a tl footer = some (.penultimateBlock (tl ++ [0x80] ++ zeros (a.blockBytes - tl.length - 1)) footer))

/-- 41_padding.md R123, R125: run to DONE, the padder writes exactly one block of B bytes for L ≤ 55 (B = 64) or L ≤ 111
(B = 128), and exactly two above. -/
def Obligations.PadderWritesOneOrTwoBlocks : Prop :=
  ∀ (a : Alg) (tl footer out : List Byte), tl.length < a.blockBytes → footer.length = a.footerBytes →
    ∃ p, padNew a tl footer = some p ∧
      (tl.length ≤ (if a.blockBytes = 64 then 55 else 111) →
        (padNext a p out).more = false ∧ (padNext a p out).pad = .done ∧ (padNext a p out).out.length = a.blockBytes) ∧
      ((if a.blockBytes = 64 then 55 else 111) < tl.length →
        (padNext a p out).more = true ∧ (padNext a p out).out.length = a.blockBytes ∧
        ∀ out2, (padNext a (padNext a p out).pad out2).more = false ∧ (padNext a (padNext a p out).pad out2).pad = .done ∧
          (padNext a (padNext a p out).pad out2).out = zeros (a.blockBytes - a.footerBytes) ++ footer)

/-- 41_padding.md R124: in DONE, PadNext returns false and leaves out unchanged. -/
def Obligations.PadNextInertInDone : Prop :=
  ∀ (a : Alg) (out : List Byte), padNext a .done out = { more := false, out := out, pad := .done }

/-! ### Schedule, step, merge and output -/

/-- 44_sha1.md R183, R184: the 80 words of the SHA-1 schedule and its round inputs. -/
def Obligations.Sha1ScheduleRecurrence : Prop :=
  ∀ block : List Byte,
    let w := fun t => (sha1Words block).getD t 0
    (sha1Words block).length = 80 ∧
    (∀ t < 16, w t = beWord 32 ((block.drop (4 * t)).take 4)) ∧
    (∀ t, 16 ≤ t → t < 80 → w t = (w (t - 3) ^^^ w (t - 8) ^^^ w (t - 14) ^^^ w (t - 16)).rotateLeft 1) ∧
    ∀ t < 80, ∃ sel : Fin 4, sel.val = t / 20 ∧
      (sha1Schedule block)[t]? = some ⟨(w t).setWidth 64, (sha1K sel).setWidth 64, some sel⟩

/-- 45_sha256.md R204: the 64 words of the SHA-256 schedule and its round inputs, σ0 and σ1 of R203 written out with the core
library's rotations. -/
def Obligations.Sha256ScheduleRecurrence : Prop :=
  ∀ block : List Byte,
    let w := fun t => (sha256Words block).getD t 0
    let sigma0 := fun x : BitVec 32 => x.rotateRight 7 ^^^ x.rotateRight 18 ^^^ x >>> 3
    let sigma1 := fun x : BitVec 32 => x.rotateRight 17 ^^^ x.rotateRight 19 ^^^ x >>> 10
    (sha256Words block).length = 64 ∧
    (∀ t < 16, w t = beWord 32 ((block.drop (4 * t)).take 4)) ∧
    (∀ t, 16 ≤ t → t < 64 →
      w t = sigma1 (w (t - 2)) + w (t - 7) + sigma0 (w (t - 15)) + w (t - 16)) ∧
    ∀ t < 64, (sha256Schedule block)[t]? = some ⟨(w t).setWidth 64, (sha256K.getD t 0).setWidth 64, none⟩

/-- 46_sha512.md R226: the 80 words of the SHA-512 schedule and its round inputs, σ0 and σ1 of R225 written out with the core
library's rotations. -/
def Obligations.Sha512ScheduleRecurrence : Prop :=
  ∀ block : List Byte,
    let w := fun t => (sha512Words block).getD t 0
    let sigma0 := fun x : BitVec 64 => x.rotateRight 1 ^^^ x.rotateRight 8 ^^^ x >>> 7
    let sigma1 := fun x : BitVec 64 => x.rotateRight 19 ^^^ x.rotateRight 61 ^^^ x >>> 6
    (sha512Words block).length = 80 ∧
    (∀ t < 16, w t = beWord 64 ((block.drop (8 * t)).take 8)) ∧
    (∀ t, 16 ≤ t → t < 80 →
      w t = sigma1 (w (t - 2)) + w (t - 7) + sigma0 (w (t - 15)) + w (t - 16)) ∧
    ∀ t < 80, (sha512Schedule block)[t]? = some ⟨w t, sha512K.getD t 0, none⟩

/-- 44_sha1.md R182, R184, R185: one SHA-1 round on the five words, with the core library's rotations. -/
def Obligations.Sha1RoundStep : Prop :=
  ∀ (s : Words) (r : RoundInput) (sel : Fin 4), r.sel = some sel →
    let a := low32 s.a; let b := low32 s.b; let c := low32 s.c; let d := low32 s.d; let e := low32 s.e
    let f := if sel = 0 then (b &&& c) ^^^ (~~~b &&& d) else if sel = 2 then (b &&& c) ^^^ (b &&& d) ^^^ (c &&& d) else b ^^^ c ^^^ d
    let t := sha1Step s r
    low32 t.a = a.rotateLeft 5 + f + e + low32 r.k + low32 r.w ∧ low32 t.b = a ∧ low32 t.c = b.rotateLeft 30 ∧
      low32 t.d = c ∧ low32 t.e = d

/-- 45_sha256.md R203, R205: one SHA-256 round on the eight words, with the core library's rotations. -/
def Obligations.Sha256RoundStep : Prop :=
  ∀ (s : Words) (r : RoundInput),
    let a := low32 s.a; let b := low32 s.b; let c := low32 s.c; let d := low32 s.d
    let e := low32 s.e; let f := low32 s.f; let g := low32 s.g; let h := low32 s.h
    let t1 := h + (e.rotateRight 6 ^^^ e.rotateRight 11 ^^^ e.rotateRight 25) + ((e &&& f) ^^^ (~~~e &&& g)) + low32 r.k + low32 r.w
    let t2 := (a.rotateRight 2 ^^^ a.rotateRight 13 ^^^ a.rotateRight 22) + ((a &&& b) ^^^ (a &&& c) ^^^ (b &&& c))
    let t := sha256Step s r
    low32 t.a = t1 + t2 ∧ low32 t.b = a ∧ low32 t.c = b ∧ low32 t.d = c ∧ low32 t.e = d + t1 ∧ low32 t.f = e ∧ low32 t.g = f ∧
      low32 t.h = g

/-- 46_sha512.md R225, R227: one SHA-512 round on the eight words, with the core library's rotations. -/
def Obligations.Sha512RoundStep : Prop :=
  ∀ (s : Words) (r : RoundInput),
    let t1 := s.h + (s.e.rotateRight 14 ^^^ s.e.rotateRight 18 ^^^ s.e.rotateRight 41) + ((s.e &&& s.f) ^^^ (~~~s.e &&& s.g))
      + r.k + r.w
    let t2 := (s.a.rotateRight 28 ^^^ s.a.rotateRight 34 ^^^ s.a.rotateRight 39)
      + ((s.a &&& s.b) ^^^ (s.a &&& s.c) ^^^ (s.b &&& s.c))
    sha512Step s r = { a := t1 + t2, b := s.a, c := s.b, d := s.c, e := s.d + t1, f := s.e, g := s.f, h := s.g }

/-- 42_block_consumer.md R143: Merge adds each of the N lanes modulo 2^w, and no carry passes between lanes. -/
def Obligations.MergeAddsLanes : Prop :=
  ∀ (a : Alg) (x y : Words) (i : Nat), i < a.stateWords →
    (liveWords a (merge a x y)).getD i 0 = ((liveWords a x).getD i 0 + (liveWords a y).getD i 0) % 2 ^ a.wordBits

/-- 42_block_consumer.md R144, R145, 44_sha1.md R186, 45_sha256.md R206, 46_sha512.md R228: after the digest is latched, the
DIGEST registers hold the words of H, truncated to OUT bytes, and 0 beyond. -/
def Obligations.DigestRegistersHoldH : Prop :=
  ∀ (s : State) (i : Nat),
    (s.alg.wordBits = 32 → i < 16 →
      (digestWord (latchDigest s) i).toNat = if 4 * i < s.alg.outBytes then (liveWords s.alg s.acc).getD i 0 else 0) ∧
    (s.alg.wordBits = 64 → i < 8 →
      (digestWord (latchDigest s) (2 * i)).toNat =
        (if 8 * i < s.alg.outBytes then (liveWords s.alg s.acc).getD i 0 / 2 ^ 32 else 0) ∧
      (digestWord (latchDigest s) (2 * i + 1)).toNat =
        if 8 * i + 4 < s.alg.outBytes then (liveWords s.alg s.acc).getD i 0 % 2 ^ 32 else 0)

/-! ### Invariants and whole-machine results -/

/-- 10_state.md R43, R34, 60_exceptions.md R275: the invariants hold after reset. -/
def Obligations.ResetHasInvariants : Prop := State.reset.Inv

/-- 10_state.md R43, R34, 60_exceptions.md R275: every step from a state with the invariants leads to one with them. -/
def Obligations.StepKeepsInvariants : Prop := ∀ s t : State, s.Inv → step s = .next t → t.Inv

/-- 10_state.md R24, R25, 20_memory.md R61: storage that holds no defined value cannot be observed. Two states that agree up to it answer every
host event alike and agree again. This also covers the model's choices of log entries 1 and 2: whatever they store there, no
register read, error or digest ever depends on it. -/
def Obligations.DeadStorageIsUnobservable : Prop :=
  ∀ s t : State, Agree s t → ∃ s' t', step s = .next s' ∧ step t = .next t' ∧ Agree s' t'

/-- 43_streaming_padder.md R165: chunk invariance, for sequences of at least one FEED. (The empty sequence is left out: with
COUNT past the ceiling a FEED of no bytes still raises LEN_OVF, where feeding nothing does not, log entry 6.) -/
def Obligations.ChunkInvariance : Prop :=
  ∀ (s : State) (xs ys : List FeedItem), s.phase = .absorb → xs.all FeedItem.ok = true → ys.all FeedItem.ok = true →
    xs ≠ [] → ys ≠ [] → feedBytes xs = feedBytes ys →
    ∃ t u, perform (feedStatements xs) s = .next t ∧ perform (feedStatements ys) s = .next u ∧ t.phase = .absorb ∧
      SameMessage t u

/-- 41_padding.md R126, 43_streaming_padder.md R160, R163, R166: INIT, any FEEDs, FINALIZE latch the digest of the whole padded
message, computed in one piece, whatever the engine held before. -/
def Obligations.StreamingComputesMessageDigest : Prop :=
  ∀ (s : State) (a : Alg) (xs : List FeedItem), s.phase ≠ .fault → xs.all FeedItem.ok = true →
    ∃ t, perform (.command (.init a.code) :: feedStatements xs ++ [.command .finalize]) s = .next t ∧
      t.phase = .done ∧ t.alg = a ∧ t.dvalid = true ∧ t.digest = bankOf (messageDigest a (feedBytes xs)) ∧
      t.count.toNat = (feedBytes xs).length % 2 ^ a.counterBits

/-- 30_encoding.md R104: feedb expands to FEEDs of at most four bytes that feed exactly its bytes. -/
def Obligations.FeedbFeedsItsBytes : Prop :=
  ∀ bs : List Byte, ∃ xs : List FeedItem, feedb bs = feedStatements xs ∧ xs.all FeedItem.ok = true ∧ feedBytes xs = bs ∧
    xs.length = (bs.length + 3) / 4

/-- 30_encoding.md R104, 43_streaming_padder.md R166: the one-shot pseudo-instruction hash computes the message's digest. -/
def Obligations.HashPseudoInstruction : Prop :=
  ∀ (s : State) (a : Alg) (m : List Byte), s.phase ≠ .fault →
    ∃ t, perform (Sys2Proof.Machine.hash a.code m) s = .next t ∧ t.phase = .done ∧ t.digest = bankOf (messageDigest a m)

/-- 43_streaming_padder.md R167: FINALIZE_RESET leaves what INIT(ALG) leaves, but for the digest just produced. -/
def Obligations.FinalizeResetReopensLikeInit : Prop :=
  ∀ s : State, s.phase = .absorb →
    ∃ t u, exec .finalizeReset s = .next t ∧ exec (.init s.alg.code) s = .next u ∧
      t.phase = .absorb ∧ t.alg = s.alg ∧ liveWords s.alg t.acc = liveWords s.alg (iv s.alg) ∧ t.count = 0 ∧ tail t = [] ∧
      u.phase = t.phase ∧ u.alg = t.alg ∧ liveWords s.alg u.acc = liveWords s.alg t.acc ∧ u.count = t.count ∧ tail u = tail t

/-- 43_streaming_padder.md R167: feeding S and finalizing with FINALIZE_RESET twice latches the same digest both times, and it
is the digest of S. -/
def Obligations.ResetEquivalence : Prop :=
  ∀ (s : State) (a : Alg) (xs ys : List FeedItem), s.phase ≠ .fault → xs.all FeedItem.ok = true → ys.all FeedItem.ok = true →
    feedBytes xs = feedBytes ys →
    ∃ t u, perform (.command (.init a.code) :: feedStatements xs ++ [.command .finalizeReset]) s = .next t ∧
      perform (feedStatements ys ++ [.command .finalizeReset]) t = .next u ∧
      t.digest = bankOf (messageDigest a (feedBytes xs)) ∧ u.digest = t.digest ∧ u.phase = .absorb

/-- 00_scope.md R6, 70_reset_and_hazards.md R306, R307: the reference sequencer, with a transaction held at its port, raises ack
exactly after the reference latency, with the state of the transaction-level machine. (R306 and R307 are not normative; the
sequencer is the model's reading of them, log entry 12, and the latency is the spec's example timing.) -/
def Obligations.SequencerRefinesTransaction : Prop :=
  ∀ (s : State) (tr : Transaction) (j : Job),
    let q : Sequencer := { engine := s, micro := .idle, job := j }
    let n := referenceTCmd (latencyClass tr s) s.alg
    ∃ t, transact tr s = .next t ∧ (Sequencer.cycles tr n q).engine = t ∧ (Sequencer.cycles tr n q).micro = .ack ∧
      ∀ k < n, (Sequencer.cycles tr k q).micro ≠ .ack

/-- 70_reset_and_hazards.md R300 to R302: a reset edge in any cycle of any transaction leaves every element at its reset value,
the sequencer idle and no ack. BUF, whose value the spec leaves unspecified, has the model's choice (log entry 1), so no clause
speaks of it. (The sequencer is the model's reading of the non-normative R307, log entry 12; that the host's later events stay in
`port` is the model's choice, log entry 3.) -/
def Obligations.SequencerResetAbandons : Prop :=
  ∀ (q : Sequencer) (req : Option Transaction),
    let t := (q.cycle true req).engine
    (q.cycle true req).micro = .idle ∧ t.phase = .uninit ∧ t.alg = .sha1 ∧ t.count = 0 ∧ t.acc = ⟨0, 0, 0, 0, 0, 0, 0, 0⟩ ∧
      t.data = 0 ∧ (∀ i : Fin 64, t.digest[i] = 0) ∧ t.dvalid = false ∧ t.eIllegal = false ∧ t.eState = false ∧
      t.eAccess = false ∧ t.lenOvf = false ∧ t.ecode = 0 ∧ t.errinfo = 0 ∧ t.pad = .none ∧ t.out = .noAck ∧
      t.port = q.engine.port ∧ ∀ off : BitVec 8, regRead off t = 0
end

