-- ==== Sys2Proof/Laws/State.lean ====
section
/-! SUPPORT. One lemma per field per update of the shared operations (Machine/Ops.lean, Consumer.lean, Commands.lean,
HostPort.lean), each true by rfl, so that no later proof unfolds a record update. -/

namespace Sys2Proof.Machine

@[simp] theorem raiseError_phase (c : ErrorCode) (i : Word) (s : State) : (raiseError c i s).phase = if c = .fault then .fault else s.phase := rfl
@[simp] theorem raiseError_alg (c : ErrorCode) (i : Word) (s : State) : (raiseError c i s).alg = s.alg := rfl
@[simp] theorem raiseError_count (c : ErrorCode) (i : Word) (s : State) : (raiseError c i s).count = s.count := rfl
@[simp] theorem raiseError_buf (c : ErrorCode) (i : Word) (s : State) : (raiseError c i s).buf = s.buf := rfl
@[simp] theorem raiseError_acc (c : ErrorCode) (i : Word) (s : State) : (raiseError c i s).acc = s.acc := rfl
@[simp] theorem raiseError_data (c : ErrorCode) (i : Word) (s : State) : (raiseError c i s).data = s.data := rfl
@[simp] theorem raiseError_digest (c : ErrorCode) (i : Word) (s : State) : (raiseError c i s).digest = s.digest := rfl
@[simp] theorem raiseError_dvalid (c : ErrorCode) (i : Word) (s : State) : (raiseError c i s).dvalid = s.dvalid := rfl
@[simp] theorem raiseError_eIllegal (c : ErrorCode) (i : Word) (s : State) : (raiseError c i s).eIllegal = (s.eIllegal || decide (c = .illegal)) := rfl
@[simp] theorem raiseError_eState (c : ErrorCode) (i : Word) (s : State) : (raiseError c i s).eState = (s.eState || decide (c = .state)) := rfl
@[simp] theorem raiseError_eAccess (c : ErrorCode) (i : Word) (s : State) : (raiseError c i s).eAccess = (s.eAccess || decide (c = .access)) := rfl
@[simp] theorem raiseError_lenOvf (c : ErrorCode) (i : Word) (s : State) : (raiseError c i s).lenOvf = (s.lenOvf || decide (c = .lenOvf)) := rfl
@[simp] theorem raiseError_ecode (c : ErrorCode) (i : Word) (s : State) : (raiseError c i s).ecode = if s.ecode = 0 then c.num else s.ecode := rfl
@[simp] theorem raiseError_errinfo (c : ErrorCode) (i : Word) (s : State) : (raiseError c i s).errinfo = if s.ecode = 0 then i else s.errinfo := rfl
@[simp] theorem raiseError_pad (c : ErrorCode) (i : Word) (s : State) : (raiseError c i s).pad = s.pad := rfl
@[simp] theorem raiseError_consumer (c : ErrorCode) (i : Word) (s : State) : (raiseError c i s).consumer = s.consumer := rfl
@[simp] theorem raiseError_out (c : ErrorCode) (i : Word) (s : State) : (raiseError c i s).out = s.out := rfl
@[simp] theorem raiseError_port (c : ErrorCode) (i : Word) (s : State) : (raiseError c i s).port = s.port := rfl

@[simp] theorem clearErrors_phase (s : State) : (clearErrors s).phase = s.phase := rfl
@[simp] theorem clearErrors_alg (s : State) : (clearErrors s).alg = s.alg := rfl
@[simp] theorem clearErrors_count (s : State) : (clearErrors s).count = s.count := rfl
@[simp] theorem clearErrors_buf (s : State) : (clearErrors s).buf = s.buf := rfl
@[simp] theorem clearErrors_acc (s : State) : (clearErrors s).acc = s.acc := rfl
@[simp] theorem clearErrors_data (s : State) : (clearErrors s).data = s.data := rfl
@[simp] theorem clearErrors_digest (s : State) : (clearErrors s).digest = s.digest := rfl
@[simp] theorem clearErrors_dvalid (s : State) : (clearErrors s).dvalid = s.dvalid := rfl
@[simp] theorem clearErrors_eIllegal (s : State) : (clearErrors s).eIllegal = false := rfl
@[simp] theorem clearErrors_eState (s : State) : (clearErrors s).eState = false := rfl
@[simp] theorem clearErrors_eAccess (s : State) : (clearErrors s).eAccess = false := rfl
@[simp] theorem clearErrors_lenOvf (s : State) : (clearErrors s).lenOvf = false := rfl
@[simp] theorem clearErrors_ecode (s : State) : (clearErrors s).ecode = 0 := rfl
@[simp] theorem clearErrors_errinfo (s : State) : (clearErrors s).errinfo = 0 := rfl
@[simp] theorem clearErrors_pad (s : State) : (clearErrors s).pad = s.pad := rfl
@[simp] theorem clearErrors_consumer (s : State) : (clearErrors s).consumer = s.consumer := rfl
@[simp] theorem clearErrors_out (s : State) : (clearErrors s).out = s.out := rfl
@[simp] theorem clearErrors_port (s : State) : (clearErrors s).port = s.port := rfl

@[simp] theorem counterZero_phase (s : State) : (counterZero s).phase = s.phase := rfl
@[simp] theorem counterZero_alg (s : State) : (counterZero s).alg = s.alg := rfl
@[simp] theorem counterZero_count (s : State) : (counterZero s).count = 0 := rfl
@[simp] theorem counterZero_buf (s : State) : (counterZero s).buf = s.buf := rfl
@[simp] theorem counterZero_acc (s : State) : (counterZero s).acc = s.acc := rfl
@[simp] theorem counterZero_data (s : State) : (counterZero s).data = s.data := rfl
@[simp] theorem counterZero_digest (s : State) : (counterZero s).digest = s.digest := rfl
@[simp] theorem counterZero_dvalid (s : State) : (counterZero s).dvalid = s.dvalid := rfl
@[simp] theorem counterZero_eIllegal (s : State) : (counterZero s).eIllegal = s.eIllegal := rfl
@[simp] theorem counterZero_eState (s : State) : (counterZero s).eState = s.eState := rfl
@[simp] theorem counterZero_eAccess (s : State) : (counterZero s).eAccess = s.eAccess := rfl
@[simp] theorem counterZero_lenOvf (s : State) : (counterZero s).lenOvf = s.lenOvf := rfl
@[simp] theorem counterZero_ecode (s : State) : (counterZero s).ecode = s.ecode := rfl
@[simp] theorem counterZero_errinfo (s : State) : (counterZero s).errinfo = s.errinfo := rfl
@[simp] theorem counterZero_pad (s : State) : (counterZero s).pad = s.pad := rfl
@[simp] theorem counterZero_consumer (s : State) : (counterZero s).consumer = s.consumer := rfl
@[simp] theorem counterZero_out (s : State) : (counterZero s).out = s.out := rfl
@[simp] theorem counterZero_port (s : State) : (counterZero s).port = s.port := rfl

@[simp] theorem loadIV_phase (s : State) : (loadIV s).phase = s.phase := rfl
@[simp] theorem loadIV_alg (s : State) : (loadIV s).alg = s.alg := rfl
@[simp] theorem loadIV_count (s : State) : (loadIV s).count = s.count := rfl
@[simp] theorem loadIV_buf (s : State) : (loadIV s).buf = s.buf := rfl
@[simp] theorem loadIV_acc (s : State) : (loadIV s).acc = putWords s.alg s.acc (iv s.alg) := rfl
@[simp] theorem loadIV_data (s : State) : (loadIV s).data = s.data := rfl
@[simp] theorem loadIV_digest (s : State) : (loadIV s).digest = s.digest := rfl
@[simp] theorem loadIV_dvalid (s : State) : (loadIV s).dvalid = s.dvalid := rfl
@[simp] theorem loadIV_eIllegal (s : State) : (loadIV s).eIllegal = s.eIllegal := rfl
@[simp] theorem loadIV_eState (s : State) : (loadIV s).eState = s.eState := rfl
@[simp] theorem loadIV_eAccess (s : State) : (loadIV s).eAccess = s.eAccess := rfl
@[simp] theorem loadIV_lenOvf (s : State) : (loadIV s).lenOvf = s.lenOvf := rfl
@[simp] theorem loadIV_ecode (s : State) : (loadIV s).ecode = s.ecode := rfl
@[simp] theorem loadIV_errinfo (s : State) : (loadIV s).errinfo = s.errinfo := rfl
@[simp] theorem loadIV_pad (s : State) : (loadIV s).pad = s.pad := rfl
@[simp] theorem loadIV_consumer (s : State) : (loadIV s).consumer = s.consumer := rfl
@[simp] theorem loadIV_out (s : State) : (loadIV s).out = s.out := rfl
@[simp] theorem loadIV_port (s : State) : (loadIV s).port = s.port := rfl

@[simp] theorem latchDigest_phase (s : State) : (latchDigest s).phase = s.phase := rfl
@[simp] theorem latchDigest_alg (s : State) : (latchDigest s).alg = s.alg := rfl
@[simp] theorem latchDigest_count (s : State) : (latchDigest s).count = s.count := rfl
@[simp] theorem latchDigest_buf (s : State) : (latchDigest s).buf = s.buf := rfl
@[simp] theorem latchDigest_acc (s : State) : (latchDigest s).acc = s.acc := rfl
@[simp] theorem latchDigest_data (s : State) : (latchDigest s).data = s.data := rfl
@[simp] theorem latchDigest_digest (s : State) : (latchDigest s).digest = bankOf (toBytes s.alg s.acc) := rfl
@[simp] theorem latchDigest_dvalid (s : State) : (latchDigest s).dvalid = true := rfl
@[simp] theorem latchDigest_eIllegal (s : State) : (latchDigest s).eIllegal = s.eIllegal := rfl
@[simp] theorem latchDigest_eState (s : State) : (latchDigest s).eState = s.eState := rfl
@[simp] theorem latchDigest_eAccess (s : State) : (latchDigest s).eAccess = s.eAccess := rfl
@[simp] theorem latchDigest_lenOvf (s : State) : (latchDigest s).lenOvf = s.lenOvf := rfl
@[simp] theorem latchDigest_ecode (s : State) : (latchDigest s).ecode = s.ecode := rfl
@[simp] theorem latchDigest_errinfo (s : State) : (latchDigest s).errinfo = s.errinfo := rfl
@[simp] theorem latchDigest_pad (s : State) : (latchDigest s).pad = s.pad := rfl
@[simp] theorem latchDigest_consumer (s : State) : (latchDigest s).consumer = s.consumer := rfl
@[simp] theorem latchDigest_out (s : State) : (latchDigest s).out = s.out := rfl
@[simp] theorem latchDigest_port (s : State) : (latchDigest s).port = s.port := rfl

@[simp] theorem initEffect_phase (a : Alg) (s : State) : (initEffect a s).phase = .absorb := rfl
@[simp] theorem initEffect_alg (a : Alg) (s : State) : (initEffect a s).alg = a := rfl
@[simp] theorem initEffect_count (a : Alg) (s : State) : (initEffect a s).count = 0 := rfl
@[simp] theorem initEffect_buf (a : Alg) (s : State) : (initEffect a s).buf = s.buf := rfl
@[simp] theorem initEffect_acc (a : Alg) (s : State) : (initEffect a s).acc = putWords a s.acc (iv a) := rfl
@[simp] theorem initEffect_data (a : Alg) (s : State) : (initEffect a s).data = s.data := rfl
@[simp] theorem initEffect_digest (a : Alg) (s : State) : (initEffect a s).digest = Vector.replicate 64 0 := rfl
@[simp] theorem initEffect_dvalid (a : Alg) (s : State) : (initEffect a s).dvalid = false := rfl
@[simp] theorem initEffect_eIllegal (a : Alg) (s : State) : (initEffect a s).eIllegal = s.eIllegal := rfl
@[simp] theorem initEffect_eState (a : Alg) (s : State) : (initEffect a s).eState = s.eState := rfl
@[simp] theorem initEffect_eAccess (a : Alg) (s : State) : (initEffect a s).eAccess = s.eAccess := rfl
@[simp] theorem initEffect_lenOvf (a : Alg) (s : State) : (initEffect a s).lenOvf = s.lenOvf := rfl
@[simp] theorem initEffect_ecode (a : Alg) (s : State) : (initEffect a s).ecode = s.ecode := rfl
@[simp] theorem initEffect_errinfo (a : Alg) (s : State) : (initEffect a s).errinfo = s.errinfo := rfl
@[simp] theorem initEffect_pad (a : Alg) (s : State) : (initEffect a s).pad = s.pad := rfl
@[simp] theorem initEffect_consumer (a : Alg) (s : State) : (initEffect a s).consumer = s.consumer := rfl
@[simp] theorem initEffect_out (a : Alg) (s : State) : (initEffect a s).out = s.out := rfl
@[simp] theorem initEffect_port (a : Alg) (s : State) : (initEffect a s).port = s.port := rfl

@[simp] theorem consumerStart_phase (b : List Byte) (s : State) : (consumerStart b s).phase = s.phase := rfl
@[simp] theorem consumerStart_alg (b : List Byte) (s : State) : (consumerStart b s).alg = s.alg := rfl
@[simp] theorem consumerStart_count (b : List Byte) (s : State) : (consumerStart b s).count = s.count := rfl
@[simp] theorem consumerStart_buf (b : List Byte) (s : State) : (consumerStart b s).buf = s.buf := rfl
@[simp] theorem consumerStart_acc (b : List Byte) (s : State) : (consumerStart b s).acc = s.acc := rfl
@[simp] theorem consumerStart_data (b : List Byte) (s : State) : (consumerStart b s).data = s.data := rfl
@[simp] theorem consumerStart_digest (b : List Byte) (s : State) : (consumerStart b s).digest = s.digest := rfl
@[simp] theorem consumerStart_dvalid (b : List Byte) (s : State) : (consumerStart b s).dvalid = s.dvalid := rfl
@[simp] theorem consumerStart_eIllegal (b : List Byte) (s : State) : (consumerStart b s).eIllegal = s.eIllegal := rfl
@[simp] theorem consumerStart_eState (b : List Byte) (s : State) : (consumerStart b s).eState = s.eState := rfl
@[simp] theorem consumerStart_eAccess (b : List Byte) (s : State) : (consumerStart b s).eAccess = s.eAccess := rfl
@[simp] theorem consumerStart_lenOvf (b : List Byte) (s : State) : (consumerStart b s).lenOvf = s.lenOvf := rfl
@[simp] theorem consumerStart_ecode (b : List Byte) (s : State) : (consumerStart b s).ecode = s.ecode := rfl
@[simp] theorem consumerStart_errinfo (b : List Byte) (s : State) : (consumerStart b s).errinfo = s.errinfo := rfl
@[simp] theorem consumerStart_pad (b : List Byte) (s : State) : (consumerStart b s).pad = s.pad := rfl
@[simp] theorem consumerStart_consumer (b : List Byte) (s : State) : (consumerStart b s).consumer = .busy s.acc (schedule s.alg b) 0 := rfl
@[simp] theorem consumerStart_out (b : List Byte) (s : State) : (consumerStart b s).out = s.out := rfl
@[simp] theorem consumerStart_port (b : List Byte) (s : State) : (consumerStart b s).port = s.port := rfl

@[simp] theorem consumerRound_phase (s : State) : (consumerRound s).phase = s.phase := rfl
@[simp] theorem consumerRound_alg (s : State) : (consumerRound s).alg = s.alg := rfl
@[simp] theorem consumerRound_count (s : State) : (consumerRound s).count = s.count := rfl
@[simp] theorem consumerRound_buf (s : State) : (consumerRound s).buf = s.buf := rfl
@[simp] theorem consumerRound_acc (s : State) : (consumerRound s).acc = s.acc := rfl
@[simp] theorem consumerRound_data (s : State) : (consumerRound s).data = s.data := rfl
@[simp] theorem consumerRound_digest (s : State) : (consumerRound s).digest = s.digest := rfl
@[simp] theorem consumerRound_dvalid (s : State) : (consumerRound s).dvalid = s.dvalid := rfl
@[simp] theorem consumerRound_eIllegal (s : State) : (consumerRound s).eIllegal = s.eIllegal := rfl
@[simp] theorem consumerRound_eState (s : State) : (consumerRound s).eState = s.eState := rfl
@[simp] theorem consumerRound_eAccess (s : State) : (consumerRound s).eAccess = s.eAccess := rfl
@[simp] theorem consumerRound_lenOvf (s : State) : (consumerRound s).lenOvf = s.lenOvf := rfl
@[simp] theorem consumerRound_ecode (s : State) : (consumerRound s).ecode = s.ecode := rfl
@[simp] theorem consumerRound_errinfo (s : State) : (consumerRound s).errinfo = s.errinfo := rfl
@[simp] theorem consumerRound_pad (s : State) : (consumerRound s).pad = s.pad := rfl
@[simp] theorem consumerRound_consumer (s : State) : (consumerRound s).consumer = s.consumer.round s.alg := rfl
@[simp] theorem consumerRound_out (s : State) : (consumerRound s).out = s.out := rfl
@[simp] theorem consumerRound_port (s : State) : (consumerRound s).port = s.port := rfl

@[simp] theorem consumerMerge_phase (s : State) : (consumerMerge s).phase = s.phase := rfl
@[simp] theorem consumerMerge_alg (s : State) : (consumerMerge s).alg = s.alg := rfl
@[simp] theorem consumerMerge_count (s : State) : (consumerMerge s).count = s.count := rfl
@[simp] theorem consumerMerge_buf (s : State) : (consumerMerge s).buf = s.buf := rfl
@[simp] theorem consumerMerge_acc (s : State) : (consumerMerge s).acc = s.consumer.merged s.alg s.acc := rfl
@[simp] theorem consumerMerge_data (s : State) : (consumerMerge s).data = s.data := rfl
@[simp] theorem consumerMerge_digest (s : State) : (consumerMerge s).digest = s.digest := rfl
@[simp] theorem consumerMerge_dvalid (s : State) : (consumerMerge s).dvalid = s.dvalid := rfl
@[simp] theorem consumerMerge_eIllegal (s : State) : (consumerMerge s).eIllegal = s.eIllegal := rfl
@[simp] theorem consumerMerge_eState (s : State) : (consumerMerge s).eState = s.eState := rfl
@[simp] theorem consumerMerge_eAccess (s : State) : (consumerMerge s).eAccess = s.eAccess := rfl
@[simp] theorem consumerMerge_lenOvf (s : State) : (consumerMerge s).lenOvf = s.lenOvf := rfl
@[simp] theorem consumerMerge_ecode (s : State) : (consumerMerge s).ecode = s.ecode := rfl
@[simp] theorem consumerMerge_errinfo (s : State) : (consumerMerge s).errinfo = s.errinfo := rfl
@[simp] theorem consumerMerge_pad (s : State) : (consumerMerge s).pad = s.pad := rfl
@[simp] theorem consumerMerge_consumer (s : State) : (consumerMerge s).consumer = .idle := rfl
@[simp] theorem consumerMerge_out (s : State) : (consumerMerge s).out = s.out := rfl
@[simp] theorem consumerMerge_port (s : State) : (consumerMerge s).port = s.port := rfl

@[simp] theorem resetEdge_port (s : State) : (resetEdge s).port = s.port := rfl
@[simp] theorem resetEdge_phase (s : State) : (resetEdge s).phase = State.reset.phase := rfl
@[simp] theorem resetEdge_alg (s : State) : (resetEdge s).alg = State.reset.alg := rfl
@[simp] theorem resetEdge_count (s : State) : (resetEdge s).count = State.reset.count := rfl
@[simp] theorem resetEdge_buf (s : State) : (resetEdge s).buf = State.reset.buf := rfl
@[simp] theorem resetEdge_acc (s : State) : (resetEdge s).acc = State.reset.acc := rfl
@[simp] theorem resetEdge_data (s : State) : (resetEdge s).data = State.reset.data := rfl
@[simp] theorem resetEdge_digest (s : State) : (resetEdge s).digest = State.reset.digest := rfl
@[simp] theorem resetEdge_dvalid (s : State) : (resetEdge s).dvalid = State.reset.dvalid := rfl
@[simp] theorem resetEdge_eIllegal (s : State) : (resetEdge s).eIllegal = State.reset.eIllegal := rfl
@[simp] theorem resetEdge_eState (s : State) : (resetEdge s).eState = State.reset.eState := rfl
@[simp] theorem resetEdge_eAccess (s : State) : (resetEdge s).eAccess = State.reset.eAccess := rfl
@[simp] theorem resetEdge_lenOvf (s : State) : (resetEdge s).lenOvf = State.reset.lenOvf := rfl
@[simp] theorem resetEdge_ecode (s : State) : (resetEdge s).ecode = State.reset.ecode := rfl
@[simp] theorem resetEdge_errinfo (s : State) : (resetEdge s).errinfo = State.reset.errinfo := rfl
@[simp] theorem resetEdge_pad (s : State) : (resetEdge s).pad = State.reset.pad := rfl
@[simp] theorem resetEdge_consumer (s : State) : (resetEdge s).consumer = State.reset.consumer := rfl
@[simp] theorem resetEdge_out (s : State) : (resetEdge s).out = State.reset.out := rfl

@[simp] theorem idleCycle_phase (s : State) : (idleCycle s).phase = s.phase := rfl
@[simp] theorem idleCycle_alg (s : State) : (idleCycle s).alg = s.alg := rfl
@[simp] theorem idleCycle_count (s : State) : (idleCycle s).count = s.count := rfl
@[simp] theorem idleCycle_buf (s : State) : (idleCycle s).buf = s.buf := rfl
@[simp] theorem idleCycle_acc (s : State) : (idleCycle s).acc = s.acc := rfl
@[simp] theorem idleCycle_data (s : State) : (idleCycle s).data = s.data := rfl
@[simp] theorem idleCycle_digest (s : State) : (idleCycle s).digest = s.digest := rfl
@[simp] theorem idleCycle_dvalid (s : State) : (idleCycle s).dvalid = s.dvalid := rfl
@[simp] theorem idleCycle_eIllegal (s : State) : (idleCycle s).eIllegal = s.eIllegal := rfl
@[simp] theorem idleCycle_eState (s : State) : (idleCycle s).eState = s.eState := rfl
@[simp] theorem idleCycle_eAccess (s : State) : (idleCycle s).eAccess = s.eAccess := rfl
@[simp] theorem idleCycle_lenOvf (s : State) : (idleCycle s).lenOvf = s.lenOvf := rfl
@[simp] theorem idleCycle_ecode (s : State) : (idleCycle s).ecode = s.ecode := rfl
@[simp] theorem idleCycle_errinfo (s : State) : (idleCycle s).errinfo = s.errinfo := rfl
@[simp] theorem idleCycle_pad (s : State) : (idleCycle s).pad = s.pad := rfl
@[simp] theorem idleCycle_consumer (s : State) : (idleCycle s).consumer = s.consumer := rfl
@[simp] theorem idleCycle_out (s : State) : (idleCycle s).out = .noAck := rfl
@[simp] theorem idleCycle_port (s : State) : (idleCycle s).port = s.port := rfl

end Sys2Proof.Machine
end

