-- ==== Sys2Proof/Laws/Ops.lean ====
section
/-! SUPPORT. What the shared operations do: big-endian bytes, the buffer, the counter, parameters (Machine/Ops.lean). -/

namespace Sys2Proof.Machine

/-! ### Parameters -/

theorem blockBytes_cases (a : Alg) :
    (a.narrow = true ∧ a.blockBytes = 64 ∧ a.counterBits = 64 ∧ a.footerBytes = 8 ∧ a.wordBits = 32) ∨
      (a.narrow = false ∧ a.blockBytes = 128 ∧ a.counterBits = 128 ∧ a.footerBytes = 16 ∧ a.wordBits = 64) := by
  cases a <;> simp [Alg.narrow, Alg.blockBytes, Alg.counterBits, Alg.footerBytes, Alg.wordBits]

theorem blockBytes_pos (a : Alg) : 0 < a.blockBytes := by
  rcases blockBytes_cases a with h | h <;> omega

theorem blockBytes_le (a : Alg) : a.blockBytes ≤ 128 := by
  rcases blockBytes_cases a with h | h <;> omega

theorem four_lt_blockBytes (a : Alg) : 64 ≤ a.blockBytes := by
  rcases blockBytes_cases a with h | h <;> omega

theorem footer_lt_block (a : Alg) : a.footerBytes + 1 < a.blockBytes := by
  rcases blockBytes_cases a with h | h <;> omega

theorem blockBytes_dvd (a : Alg) : a.blockBytes ∣ 2 ^ a.counterBits := by
  rcases blockBytes_cases a with ⟨-, hB, hW, -⟩ | ⟨-, hB, hW, -⟩ <;> rw [hB, hW] <;> decide

theorem footerBits_eq (a : Alg) : 8 * a.footerBytes = a.counterBits := by
  rcases blockBytes_cases a with h | h <;> omega

theorem counterBits_le (a : Alg) : a.counterBits ≤ 128 := by
  rcases blockBytes_cases a with h | h <;> omega

theorem outBytes_le (a : Alg) : a.outBytes ≤ 64 := by cases a <;> decide

theorem outBytes_le_full (a : Alg) : a.outBytes ≤ a.stateWords * (a.wordBits / 8) := by cases a <;> decide

@[simp] theorem ofCode_code (a : Alg) : Alg.ofCode a.code = some a := by cases a <;> rfl

@[simp] theorem algOperand_code (a : Alg) : algOperand a.code = some a := ofCode_code a

@[simp] theorem algFieldOk_code (a : Alg) : algFieldOk a.code = true := by cases a <;> rfl

/-! ### Bytes -/

@[simp] theorem length_zeros (n : Nat) : (zeros n).length = n := by simp [zeros]

@[simp] theorem length_beBytes (n x : Nat) : (beBytes n x).length = n := by
  induction n with
  | zero => rfl
  | succ n ih => simp [beBytes, ih]

theorem beNat_append (xs ys : List Byte) : beNat (xs ++ ys) = beNat xs * 256 ^ ys.length + beNat ys := by
  unfold beNat
  induction ys using List.reverseRecOn with
  | nil => simp
  | append_singleton ys y ih =>
    rw [← List.append_assoc, List.foldl_append, ih, List.foldl_append]
    simp [pow_succ]
    ring

theorem beNat_cons (b : Byte) (bs : List Byte) : beNat (b :: bs) = b.toNat * 256 ^ bs.length + beNat bs := by
  have h := beNat_append [b] bs
  simpa [beNat] using h

/-- BE_n then its big-endian value: x mod 2^(8n) (R11). -/
theorem beNat_beBytes (n x : Nat) : beNat (beBytes n x) = x % 256 ^ n := by
  induction n with
  | zero => simp [beBytes, beNat, Nat.mod_one]
  | succ n ih =>
    rw [beBytes, beNat_cons, ih, length_beBytes, BitVec.toNat_ofNat]
    have h := Nat.mod_mul (x := x) (a := 256 ^ n) (b := 256)
    rw [← pow_succ] at h
    rw [h, show (2 : Nat) ^ 8 = 256 by decide]
    ring

/-! ### The counter -/

theorem counterOffset_lt (s : State) : counterOffset s < s.alg.blockBytes := Nat.mod_lt _ (blockBytes_pos _)

@[simp] theorem counterAdd_alg (n : Nat) (cw : Word) (s : State) : (counterAdd n cw s).alg = s.alg := by
  unfold counterAdd; split <;> rfl

@[simp] theorem counterAdd_count (n : Nat) (cw : Word) (s : State) :
    (counterAdd n cw s).count.toNat = (s.count.toNat + n) % 2 ^ s.alg.counterBits := by
  have h := Nat.mod_lt (s.count.toNat + n) (show 0 < 2 ^ s.alg.counterBits by positivity)
  have h2 := Nat.pow_le_pow_right (show 0 < 2 by decide) (counterBits_le s.alg)
  simp only [counterAdd, BitVec.toNat_ofNat]
  exact Nat.mod_eq_of_lt (by omega)

/-- What CounterAdd does to the whole state: COUNT, and the error state by the warning (R111). -/
theorem counterAdd_eq (n : Nat) (cw : Word) (s : State) :
    counterAdd n cw s = { s with
      count := BitVec.ofNat 128 ((s.count.toNat + n) % 2 ^ s.alg.counterBits)
      lenOvf := s.lenOvf || lengthOverflows n s
      ecode := if lengthOverflows n s ∧ s.ecode = 0 then 4 else s.ecode
      errinfo := if lengthOverflows n s ∧ s.ecode = 0 then cw else s.errinfo } := by
  unfold counterAdd
  cases h : lengthOverflows n s <;> simp [raiseError, ErrorCode.num]

/-- The wrap keeps the offset right (R114). -/
theorem counterAdd_offset (n : Nat) (cw : Word) (s : State) :
    counterOffset (counterAdd n cw s) = (counterOffset s + n) % s.alg.blockBytes := by
  simp only [counterOffset, counterAdd_count, counterAdd_alg]
  rw [Nat.mod_mod_of_dvd _ (blockBytes_dvd s.alg), Nat.add_mod, Nat.add_mod (s.count.toNat % _) n, Nat.mod_mod]

/-! ### The block buffer -/

/-- `BUF[off .. off+len(d)) <- d` as a list. -/
theorem toList_writeBytes (d : List Byte) (buf : Vector Byte 128) (off : Nat) (h : off + d.length ≤ 128) :
    (writeBytes buf off d).toList = buf.toList.take off ++ d ++ buf.toList.drop (off + d.length) := by
  induction d generalizing buf off with
  | nil => simp [writeBytes]
  | cons b bs ih =>
    simp only [List.length_cons] at h
    rw [writeBytes, ih _ _ (by omega), Vector.toList_setIfInBounds, List.length_cons]
    have hl : off < buf.toList.length := by simp; omega
    rw [List.set_eq_take_append_cons_drop, if_pos hl]
    have h1 : (buf.toList.take off).length = off := by simp; omega
    have h2 : (buf.toList.take off ++ [b]).length = off + 1 := by simp [h1]
    rw [List.append_cons, List.take_append_of_le_length (by omega), List.take_of_length_le (by omega), List.drop_append,
      List.drop_of_length_le (by omega), h2, List.drop_drop]
    simp only [List.append_assoc, List.cons_append, List.nil_append]
    rw [show off + 1 + (off + 1 + bs.length - (off + 1)) = off + (bs.length + 1) by omega]

theorem bufTake_writeBytes (d : List Byte) (buf : Vector Byte 128) (off : Nat) (h : off + d.length ≤ 128) :
    (writeBytes buf off d).toList.take (off + d.length) = buf.toList.take off ++ d := by
  rw [toList_writeBytes d buf off h, List.take_append_of_le_length (by simp; omega), List.take_of_length_le (by simp)]

/-- A byte outside the written range is unchanged. -/
theorem getElem_writeBytes_outside (d : List Byte) (buf : Vector Byte 128) (off i : Nat) (hi : i < 128)
    (ho : i < off ∨ off + d.length ≤ i) : (writeBytes buf off d)[i] = buf[i] := by
  induction d generalizing buf off with
  | nil => rfl
  | cons b bs ih =>
    simp only [List.length_cons] at ho
    rw [writeBytes, ih _ _ (by omega), Vector.getElem_setIfInBounds, if_neg (by omega)]

@[simp] theorem length_tail (s : State) : (tail s).length = counterOffset s := by
  have h := counterOffset_lt s
  have h2 := blockBytes_le s.alg
  simp [tail, bufTake]; omega

/-- The tail is a view of ALG, COUNT and BUF only. -/
theorem tail_congr {s t : State} (ha : s.alg = t.alg) (hc : s.count = t.count) (hb : s.buf = t.buf) : tail s = tail t := by
  simp only [tail, bufTake, counterOffset, ha, hc, hb]

/-- An empty message has an empty tail. -/
theorem tail_of_count_zero {s : State} (h : s.count = 0) : tail s = [] := by
  apply List.eq_nil_of_length_eq_zero
  rw [length_tail]
  simp [counterOffset, h]

end Sys2Proof.Machine
end

