-- ==== Sys2Proof/Laws/Consumer.lean ====
section
/-! SUPPORT. What the block consumer does (Machine/Consumer.lean, OneShot.lean): Handle is one compression of H and nothing
else, and everything it computes from H depends on H's live words only. -/

namespace Sys2Proof.Machine

/-! ### Schedules -/

theorem length_extendSchedule {w : Nat} (next : List (BitVec w) → BitVec w) (n : Nat) (ws : List (BitVec w)) :
    (extendSchedule next n ws).length = ws.length + n := by
  induction n generalizing ws with
  | zero => rfl
  | succ n ih => rw [extendSchedule, ih, List.length_append]; simp; omega

@[simp] theorem length_blockWords (w : Nat) (b : List Byte) : (blockWords w b).length = 16 := by simp [blockWords]

/-- The words before the extension stay in front. -/
theorem take_extendSchedule {w : Nat} (next : List (BitVec w) → BitVec w) (n : Nat) (ws : List (BitVec w)) :
    (extendSchedule next n ws).take ws.length = ws := by
  induction n generalizing ws with
  | zero => simp [extendSchedule]
  | succ n ih =>
    have h := congrArg (List.take ws.length) (ih (ws ++ [next ws]))
    rw [List.take_take] at h
    simpa [extendSchedule] using h

/-- The recurrence: an added word is computed from the words before it. -/
theorem getElem_extendSchedule {w : Nat} (next : List (BitVec w) → BitVec w) (n : Nat) (ws : List (BitVec w)) (t : Nat)
    (h : t < ws.length + n) (h0 : ws.length ≤ t) :
    (extendSchedule next n ws)[t]'(by rw [length_extendSchedule]; exact h) = next ((extendSchedule next n ws).take t) := by
  induction n generalizing ws with
  | zero => omega
  | succ n ih =>
    by_cases ht : t = ws.length
    · subst ht
      have h1 := take_extendSchedule next n (ws ++ [next ws])
      have h2 := take_extendSchedule next (n + 1) ws
      rw [h2]
      simp only [extendSchedule]
      have h3 : (extendSchedule next n (ws ++ [next ws]))[ws.length]? = some (next ws) := by
        have h4 := congrArg (fun l => l[ws.length]?) h1
        simpa [List.getElem?_take] using h4
      exact (List.getElem?_eq_some_iff.mp h3).2
    · exact ih (ws ++ [next ws]) (by simp; omega) (by simp; omega)

@[simp] theorem length_sha1Words (b : List Byte) : (sha1Words b).length = 80 := by
  simp [sha1Words, length_extendSchedule]

@[simp] theorem length_sha256Words (b : List Byte) : (sha256Words b).length = 64 := by
  simp [sha256Words, length_extendSchedule]

@[simp] theorem length_sha512Words (b : List Byte) : (sha512Words b).length = 80 := by
  simp [sha512Words, length_extendSchedule]

@[simp] theorem length_sha256K : sha256K.length = 64 := by decide

@[simp] theorem length_sha512K : sha512K.length = 80 := by decide

/-- The schedule has exactly R round inputs (R141). -/
@[simp] theorem length_schedule (a : Alg) (b : List Byte) : (schedule a b).length = a.rounds := by
  cases a <;> simp [schedule, sha1Schedule, sha256Schedule, sha512Schedule, Alg.rounds]

/-! ### Handle -/

@[simp] theorem consumerRounds_consumer (n : Nat) (s : State) :
    (consumerRounds n s).consumer = (Consumer.round s.alg)^[n] s.consumer := by
  induction n generalizing s with
  | zero => rfl
  | succ n ih => rw [consumerRounds, ih, Function.iterate_succ_apply]; rfl

/-- n rounds change the consumer only. -/
theorem consumerRounds_eq (n : Nat) (s : State) :
    consumerRounds n s = { s with consumer := (Consumer.round s.alg)^[n] s.consumer } := by
  induction n generalizing s with
  | zero => rfl
  | succ n ih => rw [consumerRounds, ih, Function.iterate_succ_apply]; rfl

/-- The first t rounds fold the first t round inputs. -/
theorem rounds_busy (a : Alg) (w : Words) (ws : List RoundInput) (t : Nat) (h : t ≤ ws.length) :
    (Consumer.round a)^[t] (.busy w ws 0) = .busy ((ws.take t).foldl (roundStep a) w) ws t := by
  induction t with
  | zero => rfl
  | succ t ih =>
    rw [Function.iterate_succ_apply', ih (by omega)]
    have ht : t < ws.length := by omega
    simp only [Consumer.round, List.getElem?_eq_getElem ht, List.take_add_one, List.foldl_append, Option.toList_some,
      List.foldl_cons, List.foldl_nil]

/-- Handle (R140): H becomes the compression of H with the block, and nothing else changes. -/
theorem handle_eq (b : List Byte) (s : State) :
    handle b s = { s with acc := compress s.alg s.acc b, consumer := .idle } := by
  have h := rounds_busy s.alg s.acc (schedule s.alg b) s.alg.rounds (by simp)
  rw [List.take_of_length_le (by simp)] at h
  rw [handle, consumerRounds_eq, consumerMerge]
  simp only [h, Consumer.merged, compress, consumerStart]

@[simp] theorem handle_alg (b : List Byte) (s : State) : (handle b s).alg = s.alg := by rw [handle_eq]
@[simp] theorem handle_acc (b : List Byte) (s : State) : (handle b s).acc = compress s.alg s.acc b := by rw [handle_eq]
@[simp] theorem handle_buf (b : List Byte) (s : State) : (handle b s).buf = s.buf := by rw [handle_eq]
@[simp] theorem handle_count (b : List Byte) (s : State) : (handle b s).count = s.count := by rw [handle_eq]
@[simp] theorem handle_pad (b : List Byte) (s : State) : (handle b s).pad = s.pad := by rw [handle_eq]

/-! ### Live words -/

@[simp] theorem low32_setWidth (v : BitVec 32) : low32 (v.setWidth 64) = v := by
  simp [low32]

@[simp] theorem low32_putLow (old : Cell64) (v : BitVec 32) : low32 (putLow old v) = v := by
  apply BitVec.eq_of_toNat_eq
  simp only [low32, putLow, BitVec.toNat_setWidth, BitVec.toNat_append]
  have := v.isLt
  rw [Nat.shiftLeft_eq, mul_comm, ← Nat.two_pow_add_eq_or_of_lt this]
  omega

theorem low32_toNat (x : Cell64) : (low32 x).toNat = x.toNat % 2 ^ 32 := by simp [low32]

theorem low32_eq_iff (x y : Cell64) : low32 x = low32 y ↔ x.toNat % 2 ^ 32 = y.toNat % 2 ^ 32 := by
  rw [← low32_toNat, ← low32_toNat]
  exact ⟨fun h => by rw [h], BitVec.eq_of_toNat_eq⟩

theorem live_sha1 (x y : Words) : liveWords .sha1 x = liveWords .sha1 y ↔
    low32 x.a = low32 y.a ∧ low32 x.b = low32 y.b ∧ low32 x.c = low32 y.c ∧ low32 x.d = low32 y.d ∧ low32 x.e = low32 y.e := by
  simp [liveWords, Alg.stateWords, Alg.isSha1, Alg.wordBits, Alg.narrow, low32_eq_iff]

theorem live_narrow (a : Alg) (hn : a.narrow = true) (h1 : a.isSha1 = false) (x y : Words) :
    liveWords a x = liveWords a y ↔
      low32 x.a = low32 y.a ∧ low32 x.b = low32 y.b ∧ low32 x.c = low32 y.c ∧ low32 x.d = low32 y.d ∧
      low32 x.e = low32 y.e ∧ low32 x.f = low32 y.f ∧ low32 x.g = low32 y.g ∧ low32 x.h = low32 y.h := by
  simp [liveWords, Alg.stateWords, Alg.wordBits, hn, h1, low32_eq_iff]

theorem live_wide (a : Alg) (hn : a.narrow = false) (x y : Words) : liveWords a x = liveWords a y ↔ x = y := by
  have h1 : a.isSha1 = false := by cases a <;> simp_all [Alg.narrow, Alg.isSha1]
  have hm : ∀ c : Cell64, c.toNat % 18446744073709551616 = c.toNat := fun c => Nat.mod_eq_of_lt c.isLt
  have he : ∀ c d : Cell64, c.toNat = d.toNat ↔ c = d := fun c d => ⟨BitVec.eq_of_toNat_eq, fun h => by rw [h]⟩
  cases x; cases y
  simp [liveWords, Alg.stateWords, Alg.wordBits, hn, h1, hm, he]

/-- What is written is what the algorithm reads back (R25). -/
@[simp] theorem live_putWords (a : Alg) (old new : Words) : liveWords a (putWords a old new) = liveWords a new := by
  cases a
  case sha1 => rw [live_sha1]; simp [putWords, Alg.narrow]
  case sha256 => rw [live_narrow _ rfl rfl]; simp [putWords, Alg.narrow, Alg.isSha1]
  case sha224 => rw [live_narrow _ rfl rfl]; simp [putWords, Alg.narrow, Alg.isSha1]
  all_goals simp [putWords, Alg.narrow]

/-- A round reads the live words only. -/
theorem live_roundStep (a : Alg) (x y : Words) (r : RoundInput) (h : liveWords a x = liveWords a y) :
    liveWords a (roundStep a x r) = liveWords a (roundStep a y r) := by
  cases a
  case sha1 =>
    rw [live_sha1] at h ⊢
    obtain ⟨ha, hb, hc, hd, he⟩ := h
    simp [roundStep, sha1Step, ha, hb, hc, hd, he]
  case sha256 =>
    rw [live_narrow _ rfl rfl] at h ⊢
    obtain ⟨ha, hb, hc, hd, he, hf, hg, hh⟩ := h
    simp [roundStep, sha256Step, ha, hb, hc, hd, he, hf, hg, hh]
  case sha224 =>
    rw [live_narrow _ rfl rfl] at h ⊢
    obtain ⟨ha, hb, hc, hd, he, hf, hg, hh⟩ := h
    simp [roundStep, sha256Step, ha, hb, hc, hd, he, hf, hg, hh]
  all_goals
    rw [live_wide _ rfl] at h
    rw [h]

theorem live_foldl (a : Alg) (ws : List RoundInput) (x y : Words) (h : liveWords a x = liveWords a y) :
    liveWords a (ws.foldl (roundStep a) x) = liveWords a (ws.foldl (roundStep a) y) := by
  induction ws generalizing x y with
  | nil => exact h
  | cons r ws ih => exact ih _ _ (live_roundStep a x y r h)

/-- Merge adds the live words lane by lane modulo 2^w (R143). -/
theorem live_merge_eq (a : Alg) (x y : Words) :
    liveWords a (merge a x y) = List.zipWith (fun u v => (u + v) % 2 ^ a.wordBits) (liveWords a x) (liveWords a y) := by
  rw [merge, live_putWords]
  cases a <;>
    simp [liveWords, addWords, Alg.narrow, Alg.stateWords, Alg.isSha1, Alg.wordBits, low32_toNat, Nat.add_mod]

theorem live_merge (a : Alg) (x y s t : Words) (h : liveWords a x = liveWords a y) (hs : liveWords a s = liveWords a t) :
    liveWords a (merge a x s) = liveWords a (merge a y t) := by
  rw [live_merge_eq, live_merge_eq, h, hs]

/-- A compression depends on the live words of H only. -/
theorem live_compress (a : Alg) (x y : Words) (b : List Byte) (h : liveWords a x = liveWords a y) :
    liveWords a (compress a x b) = liveWords a (compress a y b) :=
  live_merge a _ _ _ _ h (live_foldl a _ _ _ h)

theorem live_foldBlocks (a : Alg) (n : Nat) (x y : Words) (bs : List Byte) (h : liveWords a x = liveWords a y) :
    liveWords a (foldBlocks a n x bs) = liveWords a (foldBlocks a n y bs) := by
  induction n generalizing x y bs with
  | zero => exact h
  | succ n ih => exact ih _ _ _ (live_compress a x y _ h)

theorem beBytes_mod (n x : Nat) : beBytes n (x % 256 ^ n) = beBytes n x := by
  have key : ∀ m, m ≤ n → beBytes m (x % 256 ^ n) = beBytes m x := by
    intro m hm
    induction m with
    | zero => rfl
    | succ m ih =>
      rw [beBytes, beBytes, ih (by omega)]
      congr 1
      apply BitVec.eq_of_toNat_eq
      simp only [BitVec.toNat_ofNat, show (2 : Nat) ^ 8 = 256 by decide]
      obtain ⟨d, rfl⟩ : ∃ d, n = m + 1 + d := ⟨n - (m + 1), by omega⟩
      rw [pow_add, pow_succ, mul_assoc, Nat.mod_mul_right_div_self, Nat.mod_mul_right_mod]
  exact key n le_rfl

/-- ToBytes reads the live words only (R144). -/
theorem toBytes_eq_live (a : Alg) (x : Words) :
    toBytes a x = ((liveWords a x).flatMap (beBytes (a.wordBits / 8))).take a.outBytes := by
  unfold toBytes liveWords
  rw [List.flatMap_map]
  congr 1
  refine List.flatMap_congr fun c _ => ?_
  rcases blockBytes_cases a with ⟨-, -, -, -, hw⟩ | ⟨-, -, -, -, hw⟩ <;> rw [wordBytes, hw] <;>
    exact (beBytes_mod _ _).symm

theorem toBytes_congr (a : Alg) (x y : Words) (h : liveWords a x = liveWords a y) : toBytes a x = toBytes a y := by
  rw [toBytes_eq_live, toBytes_eq_live, h]

@[simp] theorem length_liveWords (a : Alg) (x : Words) : (liveWords a x).length = a.stateWords := by
  cases a <;> rfl

@[simp] theorem length_toBytes (a : Alg) (x : Words) : (toBytes a x).length = a.outBytes := by
  rw [toBytes_eq_live, List.length_take, List.length_flatMap]
  have h : ((liveWords a x).map fun w => (beBytes (a.wordBits / 8) w).length) =
      List.replicate a.stateWords (a.wordBits / 8) := by
    rw [List.eq_replicate_iff]
    constructor
    · simp
    · intro n hn
      simp only [length_beBytes, List.mem_map] at hn
      obtain ⟨_, -, h⟩ := hn
      exact h.symm
  rw [h, List.sum_replicate, smul_eq_mul]
  exact Nat.min_eq_left (outBytes_le_full a)

/-! ### The digest bank -/

theorem toList_bankOf (bs : List Byte) : (bankOf bs).toList = bs.take 64 ++ zeros (64 - bs.length) := rfl

@[simp] theorem bankOf_nil : bankOf [] = Vector.replicate 64 0 := by decide

/-- The bank holds the byte string, then zeros (R145). -/
theorem getElem_bankOf (bs : List Byte) (i : Nat) (h : i < 64) : (bankOf bs)[i] = bs.getD i 0 := by
  have h1 : (bankOf bs)[i] = (bankOf bs).toList[i]'(by simpa using h) := by simp
  rw [h1]
  simp only [toList_bankOf]
  by_cases hi : i < bs.length
  · rw [List.getElem_append_left (by simp; omega)]
    simp [List.getD, hi]
  · rw [List.getElem_append_right (by simp; omega)]
    simp [zeros, List.getD, hi]

end Sys2Proof.Machine
end

