-- ==== Sys2Proof/Laws/Stream.lean ====
section
/-! SUPPORT. What the streaming padder does (Machine/Padder.lean, Stream.lean): absorbing bytes is a fold over the whole blocks
of tail and input, and a finalize is a fold over the padded tail. -/

namespace Sys2Proof.Machine

/-! ### Folding blocks -/

theorem foldBlocks_append_right (a : Alg) (n : Nat) (acc : Words) (xs ys : List Byte) (h : n * a.blockBytes ≤ xs.length) :
    foldBlocks a n acc (xs ++ ys) = foldBlocks a n acc xs := by
  induction n generalizing acc xs with
  | zero => rfl
  | succ n ih =>
    have h1 : (n + 1) * a.blockBytes = n * a.blockBytes + a.blockBytes := by ring
    rw [foldBlocks, foldBlocks, List.take_append_of_le_length (by omega), List.drop_append_of_le_length (by omega),
      ih _ _ (by simp; omega)]

/-- Folding m + n blocks is folding m and then n. -/
theorem foldBlocks_add (a : Alg) (m n : Nat) (acc : Words) (xs : List Byte) :
    foldBlocks a (m + n) acc xs = foldBlocks a n (foldBlocks a m acc xs) (xs.drop (m * a.blockBytes)) := by
  induction m generalizing acc xs with
  | zero => simp [foldBlocks]
  | succ m ih =>
    rw [show m + 1 + n = (m + n) + 1 by omega, foldBlocks, ih, foldBlocks, List.drop_drop,
      show a.blockBytes + m * a.blockBytes = (m + 1) * a.blockBytes by ring]

theorem foldBlocks_one (a : Alg) (acc : Words) (xs : List Byte) :
    foldBlocks a 1 acc xs = compress a acc (xs.take a.blockBytes) := rfl

/-! ### Absorb -/

/-- The loop of R160: every whole block is folded, the remainder is left. -/
theorem absorbBlocks_eq (fuel : Nat) (d : List Byte) (s : State) (h : d.length ≤ fuel) :
    absorbBlocks fuel d s =
      (d.drop (d.length / s.alg.blockBytes * s.alg.blockBytes),
        { s with
          acc := foldBlocks s.alg (d.length / s.alg.blockBytes) s.acc d
          consumer := if d.length < s.alg.blockBytes then s.consumer else .idle }) := by
  have hB := blockBytes_pos s.alg
  induction fuel generalizing d s with
  | zero =>
    have hd : d = [] := List.eq_nil_of_length_eq_zero (by omega)
    subst hd
    simp [absorbBlocks, foldBlocks, hB]
  | succ fuel ih =>
    by_cases hle : s.alg.blockBytes ≤ d.length
    · have hdiv : d.length / s.alg.blockBytes = (d.length - s.alg.blockBytes) / s.alg.blockBytes + 1 := by
        rw [Nat.div_eq d.length, if_pos ⟨hB, hle⟩]
      have hB' : 0 < (handle (d.take s.alg.blockBytes) s).alg.blockBytes := by simpa using hB
      rw [absorbBlocks, if_pos hle, ih _ _ (by simp; omega) hB']
      rw [handle_eq]
      simp only [List.length_drop, List.drop_drop, hdiv, foldBlocks, if_neg (Nat.not_lt.mpr hle), ite_self, Prod.mk.injEq,
        and_true]
      congr 1
      ring
    · have hdiv : d.length / s.alg.blockBytes = 0 := Nat.div_eq_of_lt (by omega)
      rw [absorbBlocks, if_neg hle, hdiv, if_pos (by omega)]
      simp [foldBlocks]

/-- The bytes at the front of the buffer once d is written at the offset: tail, then d. -/
theorem take_filled (s : State) (d : List Byte) (h : counterOffset s + d.length ≤ 128) :
    (writeBytes s.buf (counterOffset s) d).toList.take (counterOffset s + d.length) = tail s ++ d := by
  rw [bufTake_writeBytes _ _ _ h]; rfl

/-- Absorb (R160) but for the counter: H folds the whole blocks of tail ‖ d, and the rest is at the front of BUF. -/
theorem absorbBytes_eq (d : List Byte) (s : State) :
    absorbBytes d s = { s with
      acc := foldBlocks s.alg ((tail s ++ d).length / s.alg.blockBytes) s.acc (tail s ++ d)
      buf := (absorbBytes d s).buf
      consumer := if (tail s ++ d).length < s.alg.blockBytes then s.consumer else .idle } ∧
    (absorbBytes d s).buf.toList.take ((tail s ++ d).length % s.alg.blockBytes) =
      (tail s ++ d).drop ((tail s ++ d).length / s.alg.blockBytes * s.alg.blockBytes) := by
  have hB := blockBytes_pos s.alg
  have hB2 := blockBytes_le s.alg
  have hoff := counterOffset_lt s
  have hlen : (tail s ++ d).length = counterOffset s + d.length := by simp
  by_cases hlt : counterOffset s + d.length < s.alg.blockBytes
  · have hdiv : (tail s ++ d).length / s.alg.blockBytes = 0 := Nat.div_eq_of_lt (by omega)
    have hmod : (tail s ++ d).length % s.alg.blockBytes = counterOffset s + d.length := by
      rw [hlen]; exact Nat.mod_eq_of_lt hlt
    rw [hdiv, hmod]
    simp only [absorbBytes, if_pos hlt, hlen]
    exact ⟨rfl, by simpa using take_filled s d (by omega)⟩
  · have hfill : (writeBytes s.buf (counterOffset s) (d.take (s.alg.blockBytes - counterOffset s))).toList.take
        s.alg.blockBytes = (tail s ++ d).take s.alg.blockBytes := by
      have h := take_filled s (d.take (s.alg.blockBytes - counterOffset s)) (by simp; omega)
      rw [List.length_take, Nat.min_eq_left (by omega), Nat.add_sub_cancel' (by omega)] at h
      rw [h, List.take_append, length_tail, List.take_of_length_le (l := tail s) (by rw [length_tail]; omega)]
    have hdrop : d.drop (s.alg.blockBytes - counterOffset s) = (tail s ++ d).drop s.alg.blockBytes := by
      rw [List.drop_append, length_tail, List.drop_of_length_le (l := tail s) (by rw [length_tail]; omega), List.nil_append]
    have hdiv : (tail s ++ d).length / s.alg.blockBytes =
        ((tail s ++ d).length - s.alg.blockBytes) / s.alg.blockBytes + 1 := by
      rw [Nat.div_eq (tail s ++ d).length, if_pos ⟨hB, by omega⟩]
    have hmod : (tail s ++ d).length % s.alg.blockBytes = ((tail s ++ d).length - s.alg.blockBytes) % s.alg.blockBytes :=
      Nat.mod_eq_sub_mod (by omega)
    have hdl : d.length - (s.alg.blockBytes - counterOffset s) = (tail s ++ d).length - s.alg.blockBytes := by
      rw [hlen]; omega
    simp only [absorbBytes, if_neg hlt, bufTake, hfill]
    rw [handle_eq, absorbBlocks_eq _ _ _ (by simp)]
    simp only [List.length_drop, hdrop]
    refine ⟨?_, ?_⟩
    · rw [hdiv, foldBlocks, if_neg (show ¬ (tail s ++ d).length < s.alg.blockBytes by omega)]
      simp
    · have hl : ((tail s ++ d).drop s.alg.blockBytes |>.drop
          (((tail s ++ d).length - s.alg.blockBytes) / s.alg.blockBytes * s.alg.blockBytes)).length =
          (tail s ++ d).length % s.alg.blockBytes := by
        rw [List.length_drop, List.length_drop, hmod]
        have h := Nat.div_add_mod ((tail s ++ d).length - s.alg.blockBytes) s.alg.blockBytes
        rw [mul_comm] at h
        omega
      have hm := Nat.mod_lt (tail s ++ d).length hB
      have h := bufTake_writeBytes ((tail s ++ d).drop s.alg.blockBytes |>.drop
        (((tail s ++ d).length - s.alg.blockBytes) / s.alg.blockBytes * s.alg.blockBytes))
        (writeBytes s.buf (counterOffset s) (d.take (s.alg.blockBytes - counterOffset s))) 0 (by omega)
      rw [hl, Nat.zero_add] at h
      rw [h, List.take_zero, List.nil_append, List.drop_drop, hdiv]
      congr 1
      ring

/-- Absorb (R160) on the state: everything it writes. -/
theorem absorb_eq (d : List Byte) (cw : Word) (s : State) :
    absorb d cw s = { s with
      acc := foldBlocks s.alg ((tail s ++ d).length / s.alg.blockBytes) s.acc (tail s ++ d)
      buf := (absorbBytes d s).buf
      consumer := if (tail s ++ d).length < s.alg.blockBytes then s.consumer else .idle
      count := BitVec.ofNat 128 ((s.count.toNat + d.length) % 2 ^ s.alg.counterBits)
      lenOvf := s.lenOvf || lengthOverflows d.length s
      ecode := if lengthOverflows d.length s ∧ s.ecode = 0 then 4 else s.ecode
      errinfo := if lengthOverflows d.length s ∧ s.ecode = 0 then cw else s.errinfo } := by
  rw [absorb, counterAdd_eq, (absorbBytes_eq d s).1]
  rfl

theorem absorbBytes_count (d : List Byte) (s : State) : (absorbBytes d s).count = s.count := by
  rw [(absorbBytes_eq d s).1]

theorem absorbBytes_alg (d : List Byte) (s : State) : (absorbBytes d s).alg = s.alg := by
  rw [(absorbBytes_eq d s).1]

/-- The tail after Absorb: what of tail ‖ d is no whole block (R160, R24). -/
theorem tail_absorb (d : List Byte) (cw : Word) (s : State) :
    tail (absorb d cw s) = (tail s ++ d).drop ((tail s ++ d).length / s.alg.blockBytes * s.alg.blockBytes) := by
  have h := (absorbBytes_eq d s).2
  have ho : counterOffset (absorb d cw s) = (tail s ++ d).length % s.alg.blockBytes := by
    rw [absorb, counterAdd_offset, absorbBytes_alg]
    simp [counterOffset, absorbBytes_count, absorbBytes_alg]
  have hb : (absorb d cw s).buf = (absorbBytes d s).buf := by rw [absorb_eq]
  rw [tail, bufTake, ho, hb, h]

/-- BUF after bytes that do not fill the block: they join the tail (R160). -/
theorem absorbBytes_buf_short (d : List Byte) (s : State) (h : counterOffset s + d.length < s.alg.blockBytes) :
    (absorbBytes d s).buf = writeBytes s.buf (counterOffset s) d := by
  simp only [absorbBytes, if_pos h]

/-- BUF after bytes that fill one block: the bytes up to the block's end at the tail, the rest at the front (R160). -/
theorem absorbBytes_buf_block (d : List Byte) (s : State) (h : s.alg.blockBytes ≤ counterOffset s + d.length)
    (h2 : counterOffset s + d.length < 2 * s.alg.blockBytes) :
    (absorbBytes d s).buf =
      writeBytes (writeBytes s.buf (counterOffset s) (d.take (s.alg.blockBytes - counterOffset s))) 0
        (d.drop (s.alg.blockBytes - counterOffset s)) := by
  have ho := counterOffset_lt s
  simp only [absorbBytes, if_neg (Nat.not_lt.mpr h)]
  rw [absorbBlocks_eq _ _ _ (by simp), handle_eq]
  simp only [List.length_drop, Nat.div_eq_of_lt (show d.length - (s.alg.blockBytes - counterOffset s) < s.alg.blockBytes by omega),
    Nat.zero_mul, List.drop_zero]

/-! ### The padder -/

theorem zeroFill_le (a : Alg) (len : Nat) : zeroFill a len < a.blockBytes := Nat.mod_lt _ (blockBytes_pos a)

theorem zeroFill_one (a : Alg) (len : Nat) (h : len % a.blockBytes + 1 + a.footerBytes ≤ a.blockBytes) :
    zeroFill a len = a.blockBytes - a.footerBytes - 1 - len % a.blockBytes := by
  have hf := footer_lt_block a
  have h1 : 2 * a.blockBytes - a.footerBytes - 1 - len % a.blockBytes =
      (a.blockBytes - a.footerBytes - 1 - len % a.blockBytes) + a.blockBytes := by omega
  rw [zeroFill, h1, Nat.add_mod_right]
  exact Nat.mod_eq_of_lt (by omega)

theorem zeroFill_two (a : Alg) (len : Nat) (h : ¬ len % a.blockBytes + 1 + a.footerBytes ≤ a.blockBytes) :
    zeroFill a len = 2 * a.blockBytes - a.footerBytes - 1 - len % a.blockBytes := by
  have hf := footer_lt_block a
  exact Nat.mod_eq_of_lt (by omega)

/-- The number of blocks a finalize adds: one or two (R125, R164). -/
def padBlocks (a : Alg) (len : Nat) : Nat := if len % a.blockBytes + 1 + a.footerBytes ≤ a.blockBytes then 1 else 2

/-- Tail and padding fill whole blocks (R126). -/
theorem length_padding (a : Alg) (len : Nat) :
    len % a.blockBytes + (padding a len).length = padBlocks a len * a.blockBytes := by
  have hm := Nat.mod_lt len (blockBytes_pos a)
  have hf := footer_lt_block a
  by_cases h : len % a.blockBytes + 1 + a.footerBytes ≤ a.blockBytes
  · simp only [padding, padBlocks, if_pos h, zeroFill_one a len h, List.length_append, List.length_cons, length_zeros,
      length_beBytes]
    omega
  · simp only [padding, padBlocks, if_neg h, zeroFill_two a len h, List.length_append, List.length_cons, length_zeros,
      length_beBytes]
    omega

theorem zeros_add (m n : Nat) : zeros (m + n) = zeros m ++ zeros n := by
  simp [zeros, List.replicate_append_replicate]

theorem take_zeros (m n : Nat) : (zeros n).take m = zeros (min m n) := by simp [zeros]

/-- The one block of the single-block case is tail ‖ padding (R122, R126). -/
theorem single_block (a : Alg) (len : Nat) (tl : List Byte) (hl : tl.length = len % a.blockBytes)
    (h : tl.length + 1 + a.footerBytes ≤ a.blockBytes) :
    (terminated a tl).take (a.blockBytes - a.footerBytes) ++ beBytes a.footerBytes (8 * len % 2 ^ (8 * a.footerBytes)) =
      tl ++ padding a len := by
  have hz := zeroFill_one a len (by omega)
  rw [terminated, padding, hz, List.take_append, List.take_of_length_le (by omega),
    show a.blockBytes - a.footerBytes - tl.length = (a.blockBytes - a.footerBytes - 1 - tl.length) + 1 by omega,
    List.take_succ_cons, take_zeros, Nat.min_eq_left (by omega), hl]
  simp [List.append_assoc]

/-- The two blocks of the two-block case are tail ‖ padding (R122, R123, R126). -/
theorem two_blocks (a : Alg) (len : Nat) (tl : List Byte) (hl : tl.length = len % a.blockBytes)
    (h : ¬ tl.length + 1 + a.footerBytes ≤ a.blockBytes) :
    terminated a tl ++ (zeros (a.blockBytes - a.footerBytes) ++ beBytes a.footerBytes (8 * len % 2 ^ (8 * a.footerBytes))) =
      tl ++ padding a len := by
  have hm := Nat.mod_lt len (blockBytes_pos a)
  have hf := footer_lt_block a
  have hz := zeroFill_two a len (by omega)
  rw [terminated, padding, hz, show 2 * a.blockBytes - a.footerBytes - 1 - len % a.blockBytes =
    (a.blockBytes - tl.length - 1) + (a.blockBytes - a.footerBytes) by omega, zeros_add]
  simp [List.append_assoc]

theorem length_terminated (a : Alg) (tl : List Byte) (h : tl.length < a.blockBytes) :
    (terminated a tl).length = a.blockBytes := by
  simp [terminated]; omega

/-- The loop's last turn: PadNext returns false, and its block is handled too (R163). -/
theorem padLoop_final (n : Nat) (s : State) (blk : List Byte) (h : s.pad = .finalBlock blk) :
    padLoop (n + 1) s = handle blk { s with pad := .done } := by
  simp only [padLoop, padNext, h, Bool.false_eq_true, if_false]

/-- A turn that leaves one more block (R123, R163). -/
theorem padLoop_penultimate (n : Nat) (s : State) (blk footer : List Byte) (h : s.pad = .penultimateBlock blk footer) :
    padLoop (n + 1) s =
      padLoop n (handle blk { s with pad := .finalBlock (zeros (s.alg.blockBytes - s.alg.footerBytes) ++ footer) }) := by
  simp only [padLoop, padNext, h, if_true]

/-- The repeat loop of R163 on a fresh PAD: H folds tail ‖ padding, PAD is DONE. -/
theorem padLoop_eq (s : State) (p : Pad)
    (h : padNew s.alg (tail s) (counterFooter s) = some p) :
    padLoop 2 { s with pad := p } = { s with
      acc := foldBlocks s.alg (padBlocks s.alg s.count.toNat) s.acc (tail s ++ padding s.alg s.count.toNat)
      pad := .done
      consumer := .idle } := by
  have hlt := counterOffset_lt s
  have hl : (tail s).length = s.count.toNat % s.alg.blockBytes := by simp [counterOffset]
  rw [padNew, if_pos (by simpa using hlt)] at h
  by_cases h1 : (tail s).length + 1 + s.alg.footerBytes ≤ s.alg.blockBytes
  · rw [if_pos h1] at h
    have hb := single_block s.alg s.count.toNat (tail s) hl h1
    have hlen := length_padding s.alg s.count.toNat
    simp only [padBlocks, ← hl, if_pos h1] at hlen
    obtain rfl := (Option.some.inj h).symm
    rw [counterFooter, hb]
    simp only [padLoop, padNext, handle_eq, padBlocks, ← hl, if_pos h1, foldBlocks, Bool.false_eq_true, if_false]
    rw [List.take_of_length_le (by rw [List.length_append]; omega)]
  · rw [if_neg h1] at h
    have hb := two_blocks s.alg s.count.toNat (tail s) hl h1
    have ht := length_terminated s.alg (tail s) (by rw [length_tail]; exact hlt)
    obtain rfl := (Option.some.inj h).symm
    rw [counterFooter]
    simp only [padLoop, padNext, handle_eq, padBlocks, ← hl, if_neg h1, foldBlocks, Bool.false_eq_true, if_false, if_true,
      ← hb]
    have hf := footer_lt_block s.alg
    rw [List.take_append_of_le_length (by omega), List.take_of_length_le (by omega), List.drop_append_of_le_length (by omega),
      List.drop_of_length_le (by omega), List.nil_append, List.take_of_length_le (by simp; omega)]

theorem padNew_tail (s : State) : ∃ p, padNew s.alg (tail s) (counterFooter s) = some p := by
  have hlt := counterOffset_lt s
  unfold padNew
  rw [if_pos (by simpa using hlt)]
  split <;> exact ⟨_, rfl⟩

/-- H at the end of a finalize: the fold of the padded tail (R163, R126). -/
def finalAcc (s : State) : Words :=
  foldBlocks s.alg (padBlocks s.alg s.count.toNat) s.acc (tail s ++ padding s.alg s.count.toNat)

/-- What a finalize folds is a view of ALG, COUNT, BUF and H only. -/
theorem finalAcc_congr {s t : State} (ha : s.alg = t.alg) (hc : s.count = t.count) (hb : s.buf = t.buf) (hx : s.acc = t.acc) :
    finalAcc s = finalAcc t := by
  simp only [finalAcc, tail_congr ha hc hb, ha, hc, hx]

/-- FinalizeSequence (R163) on the state: the digest of the padded tail is latched and the message closed or reopened. The
FAULT arm is never taken (R280). -/
theorem finalizeSequence_eq (cw : Word) (reset : Bool) (s : State) :
    finalizeSequence cw reset s = { s with
      acc := if reset then putWords s.alg (finalAcc s) (iv s.alg) else finalAcc s
      count := if reset then 0 else s.count
      digest := bankOf (toBytes s.alg (finalAcc s))
      dvalid := true
      pad := .none
      consumer := .idle
      phase := if reset then .absorb else .done } := by
  obtain ⟨p, hp⟩ := padNew_tail s
  rw [finalizeSequence, finalizeFrom, hp]
  simp only [padLoop_eq s p hp]
  cases reset <;> rfl

end Sys2Proof.Machine
end

