-- ==== Sys2Proof/Laws/Step.lean ====
section
/-! SUPPORT. Everything a step can do, said once (Machine/Step.lean, HostPort.lean, Commands.lean): `StepCase` is the inversion
of `step`, which later proofs split on instead of unfolding. -/

namespace Sys2Proof.Machine

/-! ### Commands -/

theorem plainCommand_ok (cw : Word) (i j : Instr) (h : plainCommand cw i = .ok j) : j = i := by
  unfold plainCommand at h
  split at h
  · cases h
  · split at h
    · cases h
    · exact (Except.ok.inj h).symm

/-- A decoded command is well formed (R96). -/
theorem decode_wellFormed (cw : Word) (i : Instr) (h : decode cw = .ok i) : i.wellFormed = true := by
  unfold decode at h
  split at h
  · cases h
  · split at h
    · rw [plainCommand_ok _ _ _ h]; rfl
    · split at h
      · cases h
      · split at h
        · cases h
        · obtain rfl := Except.ok.inj h
          simp_all [Instr.wellFormed]
    · split at h
      · cases h
      · split at h
        · cases h
        · obtain rfl := Except.ok.inj h
          simp_all [Instr.wellFormed]
    · rw [plainCommand_ok _ _ _ h]; rfl
    · rw [plainCommand_ok _ _ _ h]; rfl
    · rw [plainCommand_ok _ _ _ h]; rfl
    · cases h

/-- Every well-formed command's word decodes to it (R98, R99). -/
theorem decode_encode (i : Instr) (h : i.wellFormed = true) : decode (encode i) = .ok i := by
  cases i with
  | nop => rfl
  | init alg =>
    have key : ∀ n : Fin 8, algFieldOk (BitVec.ofFin n) = true → decode (encode (.init (BitVec.ofFin n))) = .ok (.init (BitVec.ofFin n)) := by
      intro n hn
      match n with
      | 0 | 1 | 2 | 3 | 4 | 5 | 6 => rfl
      | 7 => exact absurd hn (by decide)
    exact key alg.toFin h
  | feed nb =>
    have key : ∀ n : Fin 8, nbFieldOk (BitVec.ofFin n) = true → decode (encode (.feed (BitVec.ofFin n))) = .ok (.feed (BitVec.ofFin n)) := by
      intro n hn
      match n with
      | 0 | 1 | 2 | 3 | 4 => rfl
      | 5 | 6 | 7 => exact absurd hn (by decide)
    exact key nb.toFin h
  | finalize => rfl
  | finalizeReset => rfl
  | clrerr => rfl

/-- The effect of a command past its checks (R240). -/
def effectOf (i : Instr) (s : State) : State :=
  match i with
  | .nop => s
  | .init alg => (algOperand alg).elim s fun a => initEffect a s
  | .feed nb => absorb (lanes nb s) (encode (.feed nb)) s
  | .finalize => finalizeSequence (encode .finalize) false s
  | .finalizeReset => finalizeSequence (encode .finalizeReset) true s
  | .clrerr => clearErrors s

/-- exec is its checks around its effect. -/
theorem exec_eq (i : Instr) (s : State) : exec i s = .next (guarded i (effectOf i) s) := by cases i <;> rfl

theorem exec_allowed (i : Instr) (s : State) (hw : i.wellFormed = true) (ha : allowed i s.phase = true) :
    exec i s = .next (effectOf i s) := by
  rw [exec_eq, guarded, if_neg (by simp [hw]), if_neg (by simp [ha])]

theorem exec_wrongPhase (i : Instr) (s : State) (hw : i.wellFormed = true) (ha : allowed i s.phase = false) :
    exec i s = .next (raiseError .state (encode i) s) := by
  rw [exec_eq, guarded, if_neg (by simp [hw]), if_pos ha]

theorem exec_illegal (i : Instr) (s : State) (hw : i.wellFormed = false) :
    exec i s = .next (raiseError .illegal (encode i) s) := by
  rw [exec_eq, guarded, if_pos hw]

/-- What an effect does to the error state: CLRERR clears it, FEED may warn, and no other command touches it (R240, R245). -/
theorem effectOf_flags (i : Instr) (s : State) :
    (effectOf i s).eIllegal = (s.eIllegal && decide (i ≠ .clrerr)) ∧
    (effectOf i s).eState = (s.eState && decide (i ≠ .clrerr)) ∧
    (effectOf i s).eAccess = (s.eAccess && decide (i ≠ .clrerr)) ∧
    (i ≠ .clrerr → (∀ nb, i ≠ .feed nb) →
      (effectOf i s).lenOvf = s.lenOvf ∧ (effectOf i s).ecode = s.ecode ∧ (effectOf i s).errinfo = s.errinfo) := by
  cases i with
  | nop => simp [effectOf]
  | init alg => simp only [effectOf]; cases algOperand alg <;> simp [initEffect]
  | feed nb => simp [effectOf, absorb_eq]
  | finalize => simp [effectOf, finalizeSequence_eq]
  | finalizeReset => simp [effectOf, finalizeSequence_eq]
  | clrerr => simp [effectOf]

/-- No effect writes DATA, the port's outputs or the host's pending events (R26). -/
theorem effectOf_outside (i : Instr) (s : State) :
    (effectOf i s).data = s.data ∧ (effectOf i s).out = s.out ∧ (effectOf i s).port = s.port := by
  cases i with
  | nop => simp [effectOf]
  | init alg => simp only [effectOf]; cases algOperand alg <;> simp [initEffect]
  | feed nb => simp [effectOf, absorb_eq]
  | finalize => simp [effectOf, finalizeSequence_eq]
  | finalizeReset => simp [effectOf, finalizeSequence_eq]
  | clrerr => simp [effectOf]

/-- A well-formed INIT operand names an algorithm. -/
theorem algOperand_of_ok (alg : BitVec 3) (h : algFieldOk alg = true) : ∃ a, algOperand alg = some a ∧ a.code = alg := by
  have key : ∀ n : Fin 8, algFieldOk (BitVec.ofFin n) = true → ∃ a, algOperand (BitVec.ofFin n) = some a ∧ a.code = BitVec.ofFin n := by
    intro n hn
    match n with
    | 0 => exact ⟨.sha1, rfl, rfl⟩
    | 1 => exact ⟨.sha256, rfl, rfl⟩
    | 2 => exact ⟨.sha224, rfl, rfl⟩
    | 3 => exact ⟨.sha512, rfl, rfl⟩
    | 4 => exact ⟨.sha384, rfl, rfl⟩
    | 5 => exact ⟨.sha512_224, rfl, rfl⟩
    | 6 => exact ⟨.sha512_256, rfl, rfl⟩
    | 7 => exact absurd hn (by decide)
  exact key alg.toFin h

@[simp] theorem length_lanes (nb : BitVec 3) (s : State) (h : nb.toNat ≤ 4) : (lanes nb s).length = nb.toNat := by
  simp [lanes, dataLanes]; omega

/-! ### The step -/

/-- What a step can do: one constructor a case, with the state it leads to. -/
inductive StepCase (s : State) : State → Prop where
  /-- no host event -/
  | idle (h : s.port = []) : StepCase s { s with out := .noAck }
  /-- a reset edge (R300) -/
  | reset (o : Option Transaction) (rest : List HostEvent) (h : s.port = .rst o :: rest) :
      StepCase s { State.reset with port := rest }
  /-- a read (R66) -/
  | read (off : BitVec 8) (rest : List HostEvent) (h : s.port = .txn (.read off) :: rest) :
      StepCase s { s with port := rest, out := .ackRead (regRead off s) }
  /-- a write RegWrite refuses (R67, R273) -/
  | refused (off : BitVec 8) (v : Word) (strb : BitVec 4) (rest : List HostEvent)
      (h : s.port = .txn (.write off v strb) :: rest) (hr : writeAccepted off strb = false) :
      StepCase s (raiseError .access (accessInfo off) { s with port := rest, out := .ackWrite })
  /-- a write of DATA (R67) -/
  | data (v : Word) (rest : List HostEvent) (h : s.port = .txn (.write 0x04#8 v 0b1111#4) :: rest) :
      StepCase s { s with port := rest, out := .ackWrite, data := v }
  /-- a write of CMD with an illegal word (R271) -/
  | illegal (cw : Word) (rest : List HostEvent) (e : IllegalWord)
      (h : s.port = .txn (.write 0x00#8 cw 0b1111#4) :: rest) (hd : decode cw = .error e) :
      StepCase s (raiseError .illegal cw { s with port := rest, out := .ackWrite })
  /-- a write of CMD with a command PHASE refuses (R272) -/
  | wrongPhase (cw : Word) (i : Instr) (rest : List HostEvent)
      (h : s.port = .txn (.write 0x00#8 cw 0b1111#4) :: rest) (hd : decode cw = .ok i) (ha : allowed i s.phase = false) :
      StepCase s (raiseError .state (encode i) { s with port := rest, out := .ackWrite })
  /-- a write of CMD with a command that runs (R240) -/
  | command (cw : Word) (i : Instr) (rest : List HostEvent)
      (h : s.port = .txn (.write 0x00#8 cw 0b1111#4) :: rest) (hd : decode cw = .ok i) (ha : allowed i s.phase = true) :
      StepCase s (effectOf i { s with port := rest, out := .ackWrite })

theorem writeAccepted_iff (off : BitVec 8) (strb : BitVec 4) :
    writeAccepted off strb = true ↔ strb = 0b1111#4 ∧ (off = 0x00#8 ∨ off = 0x04#8) := by simp [writeAccepted]

/-! ### The platform's accesses -/

/-- A store that is not a word's never has all four strobes (20_memory.md R68). -/
theorem accessStrobes_partial (addr n : Nat) (h : n ≠ 4) : accessStrobes addr n ≠ 0b1111#4 := by
  rw [accessStrobes, if_neg h]
  generalize Config.narrowStrobes addr n = k
  revert k
  decide

@[simp] theorem windowOffset_base (off : BitVec 8) : windowOffset (Config.engineBase + off.toNat) = some off := by
  have := off.isLt
  rw [windowOffset, if_pos ⟨by omega, by unfold Config.windowBytes; omega⟩]
  simp

theorem windowOffset_outside (addr : Nat) (h : addr < Config.engineBase ∨ Config.engineBase + 256 ≤ addr) :
    windowOffset addr = none := by
  rw [windowOffset, if_neg]
  unfold Config.windowBytes
  omega

@[simp] theorem portOffset_four (addr : Nat) : portOffset addr 4 = windowOffset addr := by
  simp [portOffset]

/-- A narrower access is presented within the word of its first byte. -/
theorem portOffset_narrow (addr n : Nat) (off : BitVec 8) (h0 : 1 ≤ n) (h4 : n < 4) (h : windowOffset addr = some off) :
    ∃ p : BitVec 8, portOffset addr n = some p ∧ p.toNat / 4 = off.toNat / 4 := by
  rw [portOffset, if_neg (by omega), h]
  by_cases hc : n < 4 ∧ Config.narrowPresentsWord = true
  · refine ⟨off &&& 0xFC#8, by simp [hc], ?_⟩
    clear h hc
    revert off
    decide
  · exact ⟨off, by simp only [Option.map_some, if_neg hc], rfl⟩

/-! ### The inversion of step -/

/-- Every step completes, in one of the cases. -/
theorem step_total (s : State) : ∃ t, step s = .next t ∧ StepCase s t := by
  unfold step
  cases hp : s.port with
  | nil => exact ⟨_, rfl, .idle hp⟩
  | cons e rest =>
    cases e with
    | rst o => exact ⟨_, rfl, .reset o rest hp⟩
    | txn t =>
      cases t with
      | read off => exact ⟨_, rfl, .read off rest hp⟩
      | write off v strb =>
        by_cases hr : writeAccepted off strb = false
        · refine ⟨_, ?_, .refused off v strb rest hp hr⟩
          simp only [hostEvent, transact, regWrite, if_pos hr]
        · obtain ⟨hs, ho⟩ := (writeAccepted_iff off strb).mp (by simpa using hr)
          subst hs
          rcases ho with rfl | rfl
          · cases hd : decode v with
            | error e =>
              refine ⟨_, ?_, .illegal v rest e hp hd⟩
              simp only [hostEvent, transact, regWrite, if_neg hr, command, hd]
              rfl
            | ok i =>
              have hw := decode_wellFormed v i hd
              have hx : hostEvent (.txn (.write 0x00#8 v 0b1111#4)) { s with port := rest } =
                  exec i { s with port := rest, out := .ackWrite } := by
                simp only [hostEvent, transact, regWrite, if_neg hr, command, hd]
                rfl
              cases ha : allowed i s.phase with
              | false =>
                exact ⟨_, hx.trans (exec_wrongPhase i _ hw ha), .wrongPhase v i rest hp hd ha⟩
              | true =>
                exact ⟨_, hx.trans (exec_allowed i _ hw ha), .command v i rest hp hd ha⟩
          · refine ⟨_, ?_, .data v rest hp⟩
            simp only [hostEvent, transact, regWrite, if_neg hr]
            rfl

/-- The inversion of a step. -/
theorem step_cases (s t : State) (h : step s = .next t) : StepCase s t := by
  obtain ⟨u, hu, hc⟩ := step_total s
  rw [h] at hu
  cases hu
  exact hc

end Sys2Proof.Machine
end

