-- ==== Sys2Proof/Laws/Message.lean ====
section
/-! SUPPORT. A message fed to the machine (Safety.lean: FeedItem, perform): the state holds the fold of its whole blocks and its
tail, every FEED keeps that, and a finalize turns it into the fold of the padded message. -/

namespace Sys2Proof.Machine

/-- The state holds a message: H folds its whole blocks from `start`, the tail is the rest, COUNT is its length past an origin
`c0` that is a multiple of B. -/
structure Holds (a : Alg) (start : Words) (c0 : Nat) (m : List Byte) (s : State) : Prop where
  phase : s.phase = .absorb
  alg : s.alg = a
  origin : c0 % a.blockBytes = 0
  count : s.count.toNat % 2 ^ a.counterBits = (c0 + m.length) % 2 ^ a.counterBits
  acc : s.acc = foldBlocks a (m.length / a.blockBytes) start m
  tail : tail s = m.drop (m.length / a.blockBytes * a.blockBytes)

/-- Splitting a message at a multiple of B: the fold of the whole goes on from the fold of the front. -/
theorem foldBlocks_split (a : Alg) (start : Words) (m d : List Byte) :
    foldBlocks a ((m ++ d).length / a.blockBytes) start (m ++ d) =
      foldBlocks a ((m.drop (m.length / a.blockBytes * a.blockBytes) ++ d).length / a.blockBytes)
        (foldBlocks a (m.length / a.blockBytes) start m) (m.drop (m.length / a.blockBytes * a.blockBytes) ++ d) := by
  have hB := blockBytes_pos a
  have hle : m.length / a.blockBytes * a.blockBytes ≤ m.length := Nat.div_mul_le_self _ _
  have hq : (m ++ d).length / a.blockBytes =
      m.length / a.blockBytes + (m.drop (m.length / a.blockBytes * a.blockBytes) ++ d).length / a.blockBytes := by
    rw [List.length_append, List.length_append, List.length_drop]
    have h1 : m.length + d.length = (m.length - m.length / a.blockBytes * a.blockBytes + d.length)
        + a.blockBytes * (m.length / a.blockBytes) := by
      rw [mul_comm a.blockBytes]; omega
    rw [h1, Nat.add_mul_div_left _ _ hB, Nat.add_comm]
  rw [hq, foldBlocks_add, foldBlocks_append_right a _ start m d hle, List.drop_append_of_le_length hle]

theorem drop_split (a : Alg) (m d : List Byte) :
    (m ++ d).drop ((m ++ d).length / a.blockBytes * a.blockBytes) =
      (m.drop (m.length / a.blockBytes * a.blockBytes) ++ d).drop
        ((m.drop (m.length / a.blockBytes * a.blockBytes) ++ d).length / a.blockBytes * a.blockBytes) := by
  have hB := blockBytes_pos a
  have hle : m.length / a.blockBytes * a.blockBytes ≤ m.length := Nat.div_mul_le_self _ _
  have hq : (m ++ d).length / a.blockBytes * a.blockBytes = m.length / a.blockBytes * a.blockBytes +
      (m.drop (m.length / a.blockBytes * a.blockBytes) ++ d).length / a.blockBytes * a.blockBytes := by
    rw [List.length_append, List.length_append, List.length_drop]
    have h1 : m.length + d.length = (m.length - m.length / a.blockBytes * a.blockBytes + d.length)
        + a.blockBytes * (m.length / a.blockBytes) := by
      rw [mul_comm a.blockBytes]; omega
    rw [h1, Nat.add_mul_div_left _ _ hB]
    ring
  rw [hq, ← List.drop_drop, List.drop_append_of_le_length hle]

/-- Absorbing d extends the message by d (R160). -/
theorem Holds.absorb {a : Alg} {start : Words} {c0 : Nat} {m : List Byte} {s : State} (h : Holds a start c0 m s) (d : List Byte)
    (cw : Word) : Holds a start c0 (m ++ d) (Machine.absorb d cw s) := by
  have hB := blockBytes_pos a
  have hs := h.alg
  refine ⟨?_, ?_, h.origin, ?_, ?_, ?_⟩
  · rw [absorb_eq]; exact h.phase
  · rw [absorb_eq]; exact hs
  · rw [Machine.absorb, counterAdd_count, absorbBytes_alg, absorbBytes_count, hs, Nat.mod_mod, List.length_append, ← Nat.add_assoc,
      Nat.add_mod, h.count, ← Nat.add_mod]
  · rw [absorb_eq]
    simp only [hs, h.acc, h.tail]
    exact (foldBlocks_split a start m d).symm
  · rw [tail_absorb, hs, h.tail]
    exact (drop_split a m d).symm

/-- After at least one FEED, COUNT is the length itself modulo 2^W. -/
theorem count_absorb {a : Alg} {start : Words} {c0 : Nat} {m : List Byte} {s : State} (h : Holds a start c0 m s) (d : List Byte)
    (cw : Word) : (Machine.absorb d cw s).count.toNat = (c0 + (m ++ d).length) % 2 ^ a.counterBits := by
  rw [Machine.absorb, counterAdd_count, absorbBytes_alg, absorbBytes_count, h.alg, List.length_append, ← Nat.add_assoc,
    Nat.add_mod, h.count, ← Nat.add_mod]

/-- Any state in ABSORB holds its own tail. -/
theorem Holds.of_absorb (s : State) (h : s.phase = .absorb) :
    Holds s.alg s.acc (s.count.toNat - counterOffset s) (Machine.tail s) s := by
  have hB := blockBytes_pos s.alg
  have hlt := counterOffset_lt s
  have hle : counterOffset s ≤ s.count.toNat := Nat.mod_le _ _
  have hdiv : (Machine.tail s).length / s.alg.blockBytes = 0 := Nat.div_eq_of_lt (by rw [length_tail]; exact hlt)
  refine ⟨h, rfl, ?_, ?_, ?_, ?_⟩
  · have h1 := Nat.div_add_mod s.count.toNat s.alg.blockBytes
    have h2 : s.count.toNat - counterOffset s = s.alg.blockBytes * (s.count.toNat / s.alg.blockBytes) := by
      unfold counterOffset; omega
    rw [h2, Nat.mul_mod_right]
  · rw [length_tail, Nat.sub_add_cancel hle]
  · rw [hdiv]; rfl
  · rw [hdiv]; simp

/-- INIT's state holds the empty message. -/
theorem Holds.of_init (a : Alg) (s : State) : Holds a (putWords a s.acc (iv a)) 0 [] (initEffect a s) := by
  refine ⟨rfl, rfl, by simp, by simp, by simp [foldBlocks], ?_⟩
  have h : (Machine.tail (initEffect a s)).length = 0 := by rw [length_tail]; simp [counterOffset]
  simpa using List.eq_nil_of_length_eq_zero h

/-- Holding is about PHASE, ALG, COUNT, BUF and H only. -/
theorem Holds.congr {a : Alg} {start : Words} {c0 : Nat} {m : List Byte} {s t : State} (h : Holds a start c0 m s)
    (hp : t.phase = s.phase) (ha : t.alg = s.alg) (hc : t.count = s.count) (hb : t.buf = s.buf) (hx : t.acc = s.acc) :
    Holds a start c0 m t := by
  refine ⟨hp.trans h.phase, ha.trans h.alg, h.origin, by rw [hc]; exact h.count, by rw [hx]; exact h.acc, ?_⟩
  rw [← h.tail]
  simp only [Machine.tail, bufTake, counterOffset, ha, hc, hb]

theorem padding_mod (a : Alg) (n : Nat) : padding a (n % 2 ^ a.counterBits) = padding a n := by
  have h1 : n % 2 ^ a.counterBits % a.blockBytes = n % a.blockBytes := Nat.mod_mod_of_dvd _ (blockBytes_dvd a)
  have h2 : 8 * (n % 2 ^ a.counterBits) % 2 ^ (8 * a.footerBytes) = 8 * n % 2 ^ (8 * a.footerBytes) := by
    rw [footerBits_eq, Nat.mul_mod, Nat.mod_mod, ← Nat.mul_mod]
  simp only [padding, zeroFill, h1, h2]

theorem padBlocks_mod (a : Alg) (n : Nat) : padBlocks a (n % 2 ^ a.counterBits) = padBlocks a n := by
  have h1 : n % 2 ^ a.counterBits % a.blockBytes = n % a.blockBytes := Nat.mod_mod_of_dvd _ (blockBytes_dvd a)
  simp only [padBlocks, h1]

/-- A finalize of a held message folds the padded message (R163, R126). -/
theorem Holds.finalAcc {a : Alg} {start : Words} {m : List Byte} {s : State} (h : Holds a start 0 m s) :
    Machine.finalAcc s = digestWords a start m := by
  have hB := blockBytes_pos a
  have hp : padding a s.count.toNat = padding a m.length := by
    rw [← padding_mod a s.count.toNat, h.count, Nat.zero_add, padding_mod]
  have hn : padBlocks a s.count.toNat = padBlocks a m.length := by
    rw [← padBlocks_mod a s.count.toNat, h.count, Nat.zero_add, padBlocks_mod]
  have hlen : (m.drop (m.length / a.blockBytes * a.blockBytes) ++ padding a m.length).length / a.blockBytes =
      padBlocks a m.length := by
    have h1 := length_padding a m.length
    have h2 : (m.drop (m.length / a.blockBytes * a.blockBytes)).length = m.length % a.blockBytes := by
      rw [List.length_drop]
      have h3 := Nat.div_add_mod m.length a.blockBytes
      rw [mul_comm] at h3
      omega
    rw [List.length_append, h2, h1, Nat.mul_div_cancel _ hB]
  unfold Machine.finalAcc
  rw [h.alg, hp, hn, h.acc, h.tail, digestWords, paddedMessage, foldBlocks_split, hlen]

/-- The digest of a held message does not depend on the start beyond its live words. -/
theorem toBytes_digestWords (a : Alg) (start : Words) (m : List Byte) (h : liveWords a start = liveWords a (iv a)) :
    toBytes a (digestWords a start m) = messageDigest a m :=
  toBytes_congr a _ _ (live_foldBlocks a _ _ _ _ h)

/-! ### Running statements -/

/-- The machine after a list of events has run, with `ps` left at the port. -/
theorem run_append (m n : Nat) (s t : State) (h : Sys2Proof.core.run m s = .next t) :
    Sys2Proof.core.run (m + n) s = Sys2Proof.core.run n t := by
  induction m generalizing s with
  | zero =>
    simp only [Host.Core.run] at h
    cases h
    simp
  | succ m ih =>
    rw [show m + 1 + n = (m + n) + 1 by omega]
    simp only [Host.Core.run] at h ⊢
    cases hs : Sys2Proof.core.step s with
    | next u =>
      rw [hs] at h
      exact ih u h
    | fault r => rw [hs] at h; cases h
    | refused r => rw [hs] at h; cases h

/-- A run of one step. -/
theorem run_one (s t : State) (h : step s = .next t) : Sys2Proof.core.run 1 s = .next t := by
  have h2 : Sys2Proof.core.step s = .next t := h
  simp only [Host.Core.run, h2]

/-- One statement that is a command which runs. -/
theorem run_command (i : Instr) (ps : List HostEvent) (s : State)
    (hp : s.port = .txn (Statement.command i).transaction :: ps) (hw : i.wellFormed = true) (ha : allowed i s.phase = true) :
    Sys2Proof.core.run 1 s = .next (effectOf i { s with port := ps, out := .ackWrite }) := by
  have hs : step s = exec i { s with port := ps, out := .ackWrite } := by
    simp only [step, hp, hostEvent, transact, Statement.transaction, regWrite, command, decode_encode i hw]
    rfl
  exact run_one _ _ (hs.trans (exec_allowed i _ hw ha))

/-- One FEED with its DATA write. -/
theorem run_item (x : FeedItem) (ps : List HostEvent) (s : State) (hport : s.port = hostEvents x.statements ++ ps)
    (hx : x.ok = true) (hp : s.phase = .absorb) :
    Sys2Proof.core.run 2 s =
      .next (absorb x.bytes (encode (.feed x.nb)) { s with data := x.word, port := ps, out := .ackWrite }) := by
  have h1 : Sys2Proof.core.run 1 s =
      .next { s with data := x.word, out := .ackWrite, port := .txn (Statement.command (.feed x.nb)).transaction :: ps } := by
    apply run_one
    simp only [step, hport]
    rfl
  rw [show 2 = 1 + 1 by rfl, run_append 1 1 _ _ h1]
  exact run_command (.feed x.nb) ps _ rfl hx (by simp [allowed, hp])

/-- A sequence of FEEDs: what it adds to the message, and what it leaves. -/
theorem run_items {a : Alg} {start : Words} {c0 : Nat} (xs : List FeedItem) (ps : List HostEvent) {m : List Byte} {s : State}
    (hport : s.port = hostEvents (feedStatements xs) ++ ps) (hx : xs.all FeedItem.ok = true) (h : Holds a start c0 m s) :
    ∃ t : State, Sys2Proof.core.run (feedStatements xs).length s = .next t ∧
      Holds a start c0 (m ++ feedBytes xs) t ∧ t.port = ps ∧ t.digest = s.digest ∧ t.dvalid = s.dvalid ∧
      t.eIllegal = s.eIllegal ∧ t.eState = s.eState ∧ t.eAccess = s.eAccess ∧
      (xs ≠ [] → t.count.toNat = (c0 + (m ++ feedBytes xs).length) % 2 ^ a.counterBits) ∧
      (xs ≠ [] → t.lenOvf = (s.lenOvf || decide (2 ^ (a.counterBits - 3) ≤ s.count.toNat + (feedBytes xs).length))) := by
  induction xs generalizing m s with
  | nil =>
    exact ⟨s, rfl, by simpa [feedBytes] using h, hport, rfl, rfl, rfl, rfl, rfl, by simp, by simp⟩
  | cons x xs ih =>
    simp only [List.all_cons, Bool.and_eq_true] at hx
    have h0 := h.congr (t := { s with data := x.word, port := hostEvents (feedStatements xs) ++ ps, out := .ackWrite })
      rfl rfl rfl rfl rfl
    have h1 := h0.absorb x.bytes (encode (.feed x.nb))
    have hevents : s.port = hostEvents x.statements ++ (hostEvents (feedStatements xs) ++ ps) := by
      rw [hport]
      simp [feedStatements, hostEvents]
    have hr := run_item x (hostEvents (feedStatements xs) ++ ps) s hevents hx.1 h.phase
    have hlen : (feedStatements (x :: xs)).length = 2 + (feedStatements xs).length := by
      simp [feedStatements, FeedItem.statements, feedChunk]
      omega
    obtain ⟨t, ht, hh, hpt, hd, hv, he1, he2, he3, hc, hl⟩ := ih (by rw [absorb_eq]) hx.2 h1
    have h1c := count_absorb h0 x.bytes (encode (.feed x.nb))
    have h1l : (absorb x.bytes (encode (.feed x.nb))
        { s with data := x.word, port := hostEvents (feedStatements xs) ++ ps, out := .ackWrite }).lenOvf =
        (s.lenOvf || decide (2 ^ (a.counterBits - 3) ≤ s.count.toNat + x.bytes.length)) := by
      rw [absorb_eq]
      simp only [lengthOverflows, h.alg]
    have h1n : (absorb x.bytes (encode (.feed x.nb))
        { s with data := x.word, port := hostEvents (feedStatements xs) ++ ps, out := .ackWrite }).count.toNat =
        (s.count.toNat + x.bytes.length) % 2 ^ a.counterBits := by
      rw [absorb, counterAdd_count, absorbBytes_alg, absorbBytes_count, h0.alg]
    refine ⟨t, ?_, ?_, hpt, ?_, ?_, ?_, ?_, ?_, ?_, ?_⟩
    · rw [hlen, run_append 2 _ _ _ hr, ht]
    · simpa [feedBytes, List.append_assoc] using hh
    · rw [hd, absorb_eq]
    · rw [hv, absorb_eq]
    · rw [he1, absorb_eq]
    · rw [he2, absorb_eq]
    · rw [he3, absorb_eq]
    · intro _
      by_cases hn : xs = []
      · subst hn
        simp only [feedStatements, List.flatMap_nil, List.length_nil, Host.Core.run] at ht
        cases ht
        simpa [feedBytes, feedStatements] using h1c
      · have := hc hn
        simpa [feedBytes, List.append_assoc] using this
    · intro _
      have hb : (feedBytes (x :: xs)).length = x.bytes.length + (feedBytes xs).length := by simp [feedBytes]
      by_cases hn : xs = []
      · subst hn
        simp only [feedStatements, List.flatMap_nil, List.length_nil, Host.Core.run] at ht
        cases ht
        rw [hb]
        simpa [feedBytes, feedStatements] using h1l
      · rw [hl hn, h1l, h1n, hb, Bool.or_assoc, ← Nat.add_assoc]
        congr 1
        have hle : 2 ^ (a.counterBits - 3) ≤ 2 ^ a.counterBits := Nat.pow_le_pow_right (by decide) (by omega)
        by_cases ho : 2 ^ (a.counterBits - 3) ≤ s.count.toNat + x.bytes.length
        · simp only [ho, decide_true, Bool.true_or]
          exact (decide_eq_true (by omega)).symm
        · simp only [ho, decide_false, Bool.false_or, Nat.mod_eq_of_lt (show s.count.toNat + x.bytes.length < 2 ^ a.counterBits by omega)]

end Sys2Proof.Machine
end

