-- ==== Sys2Proof/Laws/PerInstr.lean ====
section
/-! SUPPORT. Per-instruction families. EncodeLegal: a command's word is legal exactly when the command is well formed (spec
30_encoding.md R93 to R96, R98). -/

namespace Sys2Proof.Laws.EncodeLegal

/-- `Legal` of the encoded word is the well-formedness of the term. -/
def Statement (i : Instr) : Prop := legal (encode i) = i.wellFormed

theorem nop : Statement .nop := rfl

theorem init (alg : BitVec 3) : Statement (.init alg) := by
  have key : ∀ n : Fin 8, legal (encode (.init (BitVec.ofFin n))) = (Instr.init (BitVec.ofFin n)).wellFormed := by decide
  exact key alg.toFin

theorem feed (nb : BitVec 3) : Statement (.feed nb) := by
  have key : ∀ n : Fin 8, legal (encode (.feed (BitVec.ofFin n))) = (Instr.feed (BitVec.ofFin n)).wellFormed := by decide
  exact key nb.toFin

theorem finalize : Statement .finalize := rfl

theorem finalizeReset : Statement .finalizeReset := rfl

theorem clrerr : Statement .clrerr := rfl

end Sys2Proof.Laws.EncodeLegal
end

