-- ==== Sys2Proof/Laws/Sequencer.lean ====
section
/-! SUPPORT. What the reference sequencer does with one block (Machine/Sequencer.lean): R cycles in ROUND and one in MERGE are one
Handle (70_reset_and_hazards.md R306, R307). -/

namespace Sys2Proof.Machine

theorem cycles_add (tr : Transaction) (m n : Nat) (q : Sequencer) :
    Sequencer.cycles tr (m + n) q = Sequencer.cycles tr n (Sequencer.cycles tr m q) := by
  induction m generalizing q with
  | zero => simp [Sequencer.cycles]
  | succ m ih =>
    rw [show m + 1 + n = (m + n) + 1 by omega, Sequencer.cycles, ih, Sequencer.cycles]

/-- n cycles in ROUND, the last of them perhaps the last round of the block. -/
theorem cycles_round (tr : Transaction) (n : Nat) (q : Sequencer) (w : Words) (ws : List RoundInput) (t : Nat)
    (hm : q.micro = .round) (hc : q.engine.consumer = .busy w ws t) (hw : ws.length = q.engine.alg.rounds)
    (ht : t + n ≤ q.engine.alg.rounds) (h0 : t < q.engine.alg.rounds) :
    Sequencer.cycles tr n q =
      { q with
        engine := consumerRounds n q.engine
        micro := if t + n = q.engine.alg.rounds then .merge else .round } := by
  induction n generalizing q w t with
  | zero =>
    rw [Nat.add_zero, if_neg (by omega), ← hm]
    rfl
  | succ n ih =>
    have hlast : lastRound q.engine = decide (q.engine.alg.rounds ≤ t + 1) := by simp [lastRound, hc]
    have hstep : q.cycle false (some tr) =
        { q with engine := consumerRound q.engine, micro := if lastRound q.engine then .merge else .round } := by
      simp only [Sequencer.cycle, Bool.false_eq_true, if_false, hm]
    have ht2 : t < ws.length := by omega
    have hc2 : (consumerRound q.engine).consumer = .busy (roundStep q.engine.alg w ws[t]) ws (t + 1) := by
      simp only [consumerRound, hc, Consumer.round, List.getElem?_eq_getElem ht2]
    rw [Sequencer.cycles, hstep]
    by_cases hl : q.engine.alg.rounds ≤ t + 1
    · have hn : n = 0 := by omega
      subst hn
      rw [hlast, decide_eq_true hl, if_pos rfl, if_pos (by omega)]
      rfl
    · rw [hlast, decide_eq_false hl]
      have hq := ih { q with engine := consumerRound q.engine, micro := .round } _ (t + 1) rfl hc2 hw
        (by rw [consumerRound_alg]; omega) (by rw [consumerRound_alg]; omega)
      rw [show t + 1 + n = t + (n + 1) by omega] at hq
      exact hq

theorem rounds_pos (a : Alg) : 0 < a.rounds := by cases a <;> decide

/-- A block handed to the consumer: R + 1 cycles later the sequencer is where MERGE leads with Handle's state. -/
theorem cycles_block (tr : Transaction) (q : Sequencer) (job : Job) (block : List Byte) (s : State) :
    Sequencer.cycles tr (s.alg.rounds + 1) (q.startBlock job block s) =
      Sequencer.afterMerge { q with job := job } (handle block s) := by
  have h := cycles_round tr s.alg.rounds (q.startBlock job block s) s.acc (schedule s.alg block) 0 rfl rfl
    (by simp [Sequencer.startBlock, consumerStart]) (by simp [Sequencer.startBlock, consumerStart]) (rounds_pos _)
  rw [cycles_add, h, if_pos (by simp [Sequencer.startBlock, consumerStart])]
  simp only [Sequencer.cycles, Sequencer.cycle, Bool.false_eq_true, if_false]
  cases job with
  | feed => rfl
  | finalize reset =>
    simp only [Sequencer.startBlock, Sequencer.afterMerge, Sequencer.nextPadBlock]
    rw [show consumerMerge (consumerRounds s.alg.rounds (consumerStart block s)) = handle block s from rfl]

/-- No ack while a block is in ROUND or MERGE. -/
theorem cycles_block_noAck (tr : Transaction) (q : Sequencer) (job : Job) (block : List Byte) (s : State) (k : Nat)
    (hk : k ≤ s.alg.rounds) : (Sequencer.cycles tr k (q.startBlock job block s)).micro ≠ .ack := by
  have h := cycles_round tr k (q.startBlock job block s) s.acc (schedule s.alg block) 0 rfl rfl
    (by simp [Sequencer.startBlock, consumerStart]) (by simp [Sequencer.startBlock, consumerStart]; omega) (rounds_pos _)
  rw [h]
  simp only
  split <;> simp

/-- The last padding block and the latch: R + 2 cycles end a finalize with the state of the transaction-level loop. -/
theorem cycles_lastPad (tr : Transaction) (n : Nat) (q : Sequencer) (reset : Bool) (s : State) (blk : List Byte)
    (h : s.pad = .finalBlock blk) :
    Sequencer.cycles tr (s.alg.rounds + 1) (q.nextPadBlock reset s) =
        { q with engine := padLoop (n + 1) s, micro := .latch, job := .finalize reset } ∧
      Sequencer.cycles tr (s.alg.rounds + 2) (q.nextPadBlock reset s) =
        { q with
          engine := { finishFinalize reset (latchDigest { padLoop (n + 1) s with pad := .none }) with out := .ackWrite }
          micro := .ack
          job := .finalize reset } := by
  have h1 : Sequencer.cycles tr (s.alg.rounds + 1) (q.nextPadBlock reset s) =
      { q with engine := padLoop (n + 1) s, micro := .latch, job := .finalize reset } := by
    rw [padLoop_final n s blk h]
    simp only [Sequencer.nextPadBlock, padNext, h]
    rw [show s.alg.rounds = ({ s with pad := .done } : State).alg.rounds from rfl, cycles_block]
    simp only [Sequencer.afterMerge, handle_pad]
  refine ⟨h1, ?_⟩
  rw [show s.alg.rounds + 2 = s.alg.rounds + 1 + 1 by omega, cycles_add, h1]
  rfl

/-- The first of two padding blocks: R + 1 cycles later the second one is started. -/
theorem cycles_firstPad (tr : Transaction) (q : Sequencer) (reset : Bool) (s : State) (blk footer : List Byte)
    (h : s.pad = .penultimateBlock blk footer) :
    Sequencer.cycles tr (s.alg.rounds + 1) (q.nextPadBlock reset s) =
      q.nextPadBlock reset (handle blk { s with pad := .finalBlock (zeros (s.alg.blockBytes - s.alg.footerBytes) ++ footer) }) := by
  rw [Sequencer.nextPadBlock, h]
  simp only [padNext]
  rw [show s.alg.rounds = ({ s with
    pad := .finalBlock (zeros (s.alg.blockBytes - s.alg.footerBytes) ++ footer) } : State).alg.rounds from rfl, cycles_block]
  simp only [Sequencer.afterMerge, handle_pad]
  rfl

end Sys2Proof.Machine
end

