-- ==== Sys2Proof/Tests/Slice0.lean ====
section
/-! SUPPORT. Own tests. Every expected value is from the spec: the vectors of 95_test_vectors.md (named in the comments), the
words of opcode_table.json and 30_encoding.md R98, and the rules themselves. The witnesses at the end show states and operands
that meet the hypotheses of each statement. -/

namespace Sys2Proof.Tests

open Sys2Proof.Machine

/-! ### Helpers -/

/-- A state of a phase and algorithm that holds a message shorter than a block. -/
def holding (p : Phase) (a : Alg) (m : List Byte) : State :=
  { State.reset with
    phase := p, alg := a, acc := putWords a Words.zero (iv a), buf := writeBytes State.reset.buf 0 m
    count := BitVec.ofNat 128 m.length }

/-- A write with all strobes. -/
def wr (off : BitVec 8) (v : Word) : HostEvent := .txn (.write off v 0b1111)

/-- A CMD write. -/
def cmd (cw : Word) : HostEvent := wr 0x00 cw

/-- A read. -/
def rd (off : BitVec 8) : HostEvent := .txn (.read off)

/-- The state with one host event waiting. -/
def given (e : HostEvent) (s : State) : State := { s with port := [e] }

/-- The state after one step on one event. -/
def after (e : HostEvent) (s : State) : Option State :=
  match step (given e s) with
  | .next t => some t
  | .fault _ => none
  | .refused _ => none

/-- STATUS and ERRINFO after an event, the two columns of the spec's vectors. -/
def report (e : HostEvent) (s : State) : Option (Word × Word) := (after e s).map fun t => (statusWord t, t.errinfo)

/-- The bytes of "adam". -/
def adam : List Byte := [0x61, 0x64, 0x61, 0x6d]

/-! ### Well-formedness: an ill-formed term for each check -/

/-- R93: INIT refuses ALG = 7. -/
theorem test_wellFormed_init : (Instr.init 7).wellFormed = false ∧ (Instr.init 6).wellFormed = true := by decide

/-- R94: FEED refuses NB in 5..7. -/
theorem test_wellFormed_feed :
    (Instr.feed 5).wellFormed = false ∧ (Instr.feed 7).wellFormed = false ∧ (Instr.feed 4).wellFormed = true := by decide

/-! ### Decoding: words written out bit by bit from 30_encoding.md R91: RSV, NB, r, ALG, OP -/

/-- What the decoder reads, none where it rejects. -/
def decoded (cw : Word) : Option Instr := (decode cw).toOption

theorem test_decode_nop : decoded (0#21 ++ 0b000#3 ++ 0#1 ++ 0b000#3 ++ 0b0000#4) = some .nop := by decide

/-- INIT sha512_256, and INIT sha384. -/
theorem test_decode_init : decoded (0#21 ++ 0b000#3 ++ 0#1 ++ 0b110#3 ++ 0b0001#4) = some (.init 6) ∧
    decoded (0#21 ++ 0b000#3 ++ 0#1 ++ 0b100#3 ++ 0b0001#4) = some (.init 4) := by decide

theorem test_decode_feed : decoded (0#21 ++ 0b100#3 ++ 0#1 ++ 0b000#3 ++ 0b0010#4) = some (.feed 4) ∧
    decoded (0#21 ++ 0b001#3 ++ 0#1 ++ 0b000#3 ++ 0b0010#4) = some (.feed 1) := by decide

theorem test_decode_finalize : decoded (0#21 ++ 0b000#3 ++ 0#1 ++ 0b000#3 ++ 0b0011#4) = some .finalize := by decide

theorem test_decode_finalizeReset : decoded (0#21 ++ 0b000#3 ++ 0#1 ++ 0b000#3 ++ 0b0100#4) = some .finalizeReset := by decide

theorem test_decode_clrerr : decoded (0#21 ++ 0b000#3 ++ 0#1 ++ 0b000#3 ++ 0b0101#4) = some .clrerr := by decide

/-- Why the decoder rejects, none where it does not. -/
def rejection (cw : Word) : Option IllegalWord :=
  match decode cw with
  | .error e => some e
  | .ok _ => none

/-- Each rejection by its name: V-ERR-4, V-ERR-2, V-ERR-1, V-ERR-6, V-ERR-5, V-ERR-7. -/
theorem test_decode_rejects : rejection 0x00000080 = some .reservedBit ∧ rejection 0x00000006 = some .badOpcode ∧
    rejection 0x00000071 = some .badAlg ∧ rejection 0x00000412 = some .strayAlg ∧ rejection 0x00000502 = some .badNb ∧
    rejection 0x00000101 = some .strayNb := by decide

/-! ### Commands: one step each -/

/-- V-CMD-8. -/
theorem test_nop : report (cmd 0x00000000) (holding .absorb .sha256 []) = some (0x00000011, 0x00000000) := by decide

/-- V-CMD-5: INIT sha384 after reset; the IV of 46_sha512.md R221. -/
theorem test_init : (after (cmd 0x00000041) State.reset).map (fun t => (statusWord t, t.count, t.acc.a, t.acc.h)) =
    some (0x00000041, 0, 0xcbbb9d5dc1059ed8, 0x47b5481dbefa4fa4) := by decide

/-- V-CMD-15: INIT in DONE clears D and DVALID. -/
theorem test_init_done : (after (cmd 0x00000011)
      { holding .done .sha1 adam with dvalid := true, digest := Vector.replicate 64 0xff }).map
    (fun t => (statusWord t, t.digest, t.count)) = some (0x00000011, Vector.replicate 64 0, 0) := by decide

set_option maxRecDepth 20000 in
/-- V-CMD-10: the tail is the four lanes, lane 0 first. -/
theorem test_feed : (after (cmd 0x00000402) { holding .absorb .sha256 [] with data := 0x61626364 }).map
    (fun t => (statusWord t, t.count, tail t, t.data)) =
      some (0x00000011, 4, [0x61, 0x62, 0x63, 0x64], 0x61626364) := by decide

set_option maxRecDepth 20000 in
/-- V-CMD-11: FEED 2 takes lanes 0 and 1. -/
theorem test_feed_two : (after (cmd 0x00000202) { holding .absorb .sha1 [0x61, 0x62] with data := 0x61620000 }).map
    (fun t => (statusWord t, t.count, tail t)) = some (0x00000001, 4, [0x61, 0x62, 0x61, 0x62]) := by decide

set_option maxRecDepth 20000 in
/-- V-CMD-12: SHA-1 of "adam" (V-SRC-3). -/
theorem test_finalize : (after (cmd 0x00000003) (holding .absorb .sha1 adam)).map
    (fun t => (statusWord t, t.count, digestWord t 0, digestWord t 4, digestWord t 5)) =
      some (0x0000000a, 4, 0x0e18f44c, 0x9ac4fb2a, 0) := by decide

/-- V-CMD-13: a second FINALIZE is refused. -/
theorem test_finalize_done : report (cmd 0x00000003) { holding .done .sha1 adam with dvalid := true } =
    some (0x0000220a, 0x00000003) := by decide

set_option maxRecDepth 20000 in
/-- V-CMD-16: SHA-256 of "", and the IV reloaded. -/
theorem test_finalizeReset : (after (cmd 0x00000004) (holding .absorb .sha256 [])).map
    (fun t => (statusWord t, t.count, digestWord t 0, digestWord t 7, t.acc)) =
      some (0x00000019, 0, 0xe3b0c442, 0x7852b855, sha256IV) := by decide

/-- V-ERR-11. -/
theorem test_finalizeReset_uninit : report (cmd 0x00000004) State.reset = some (0x00002200, 0x00000004) := by decide

/-- V-ERR-24. -/
theorem test_clrerr : report (cmd 0x00000005)
    { State.reset with eState := true, eAccess := true, ecode := 2, errinfo := 0x00000402 } = some (0, 0) := by decide

/-- V-ERR-25: CLRERR with bit 7 set is ILLEGAL and clears nothing. -/
theorem test_clrerr_illegal : report (cmd 0x00000085) { State.reset with eState := true, ecode := 2, errinfo := 0x00000402 } =
    some (0x00002300, 0x00000402) := by decide

/-! ### Errors and the port -/

/-- V-ERR-1, V-ERR-8, V-ERR-12: illegal words. -/
theorem test_illegal : report (cmd 0x00000071) State.reset = some (0x00001100, 0x00000071) ∧
    report (cmd 0x80000003) (holding .absorb .sha256 []) = some (0x00001111, 0x80000003) ∧
    report (cmd 0x00000502) State.reset = some (0x00001100, 0x00000502) := by decide

/-- V-ERR-13, V-ERR-15, V-ERR-17, V-ERR-19: refused writes. -/
theorem test_access : report (wr 0x08 0) State.reset = some (0x00003400, 0x00000108) ∧
    report (wr 0x05 0x61626364) State.reset = some (0x00003400, 0x00000105) ∧
    report (.txn (.write 0x00 0x00000006 0b0001)) State.reset = some (0x00003400, 0x00000100) ∧
    report (wr 0xfc 1) State.reset = some (0x00003400, 0x000001fc) := by decide

/-- V-ERR-27: a failed invariant check, then INIT, then CLRERR in FAULT. -/
theorem test_fault : report (cmd 0x00000011) (finalizeFrom (zeros 64) (zeros 8) 0x00000003 false (holding .absorb .sha256 [])) =
      some (0x00005217, 0x00000003) ∧
    statusWord (finalizeFrom (zeros 64) (zeros 8) 0x00000003 false (holding .absorb .sha256 [])) = 0x00005017 ∧
    report (cmd 0x00000005) { holding .fault .sha256 [] with eState := true, ecode := 5, errinfo := 3 } =
      some (0x00000017, 0) := by decide

/-- P1 and V-ERR-20, V-ERR-21, V-ERR-22: reads. -/
theorem test_read : (after (rd 0x10) (holding .absorb .sha1 adam)).map (fun t => t.out) = some (.ackRead 4) ∧
    (after (rd 0x04) { State.reset with data := 0x61626364 }).map (fun t => t.out) = some (.ackRead 0x61626364) ∧
    (after (rd 0x05) { State.reset with data := 0x61626364 }).map (fun t => t.out) = some (.ackRead 0) ∧
    (after (rd 0x60) { State.reset with data := 0x61626364 }).map (fun t => t.out) = some (.ackRead 0) ∧
    (after (rd 0x00) { State.reset with data := 0x61626364 }).map (fun t => t.out) = some (.ackRead 0) := by decide

set_option maxRecDepth 20000 in
/-- V-RST-1. -/
theorem test_reset : (after (.rst (some (.write 0x00 0x00000003 0b1111))) { holding .done .sha1 adam with dvalid := true }) =
    some State.reset := by decide

/-! ### Counter and padding -/

/-- COUNT, LEN_OVF, ECODE, ERRINFO and the footer after CounterAdd. -/
def counted (a : Alg) (count : BitVec 128) (n : Nat) (cw : Word) : BitVec 128 × Bool × BitVec 4 × Word × Nat :=
  let t := counterAdd n cw { holding .absorb a [] with count := count }
  (t.count, t.lenOvf, t.ecode, t.errinfo, beNat (counterFooter t))

/-- V-CNT-5, V-CNT-6: the ceiling. -/
theorem test_counter_ceiling :
    counted .sha256 0x1ffffffffffffffb 4 0x402 = (0x1fffffffffffffff, false, 0, 0, 0xfffffffffffffff8) ∧
    counted .sha256 0x1ffffffffffffffc 4 0x402 = (0x2000000000000000, true, 4, 0x402, 0) := by decide

/-- V-CNT-8, V-CNT-10: the wrap. -/
theorem test_counter_wrap :
    counted .sha1 0xffffffffffffffff 1 0x102 = (0, true, 4, 0x102, 0) ∧
    counted .sha384 0xfffffffffffffffffffffffffffffffe 4 0x402 = (2, true, 4, 0x402, 16) := by decide

/-- V-PAD-3: L = 55 is one block, the footer right after the terminator. -/
theorem test_pad_one : padNew .sha1 (List.replicate 55 0x61) (beBytes 8 440) =
    some (.finalBlock (List.replicate 55 0x61 ++ [0x80, 0, 0, 0, 0, 0, 0, 0x01, 0xb8])) := by decide

/-- V-PAD-4: L = 56 is two blocks. -/
theorem test_pad_two : padNew .sha1 (List.replicate 56 0x61) (beBytes 8 448) =
      some (.penultimateBlock (List.replicate 56 0x61 ++ [0x80, 0, 0, 0, 0, 0, 0, 0]) [0, 0, 0, 0, 0, 0, 0x01, 0xc0]) ∧
    (padNext .sha1 (.penultimateBlock (List.replicate 56 0x61 ++ [0x80, 0, 0, 0, 0, 0, 0, 0]) [0, 0, 0, 0, 0, 0, 0x01, 0xc0])
      []).pad = .finalBlock (zeros 56 ++ [0, 0, 0, 0, 0, 0, 0x01, 0xc0]) := by decide

/-! ### The three compressions and their constants -/

/-- The padded block of "abc" (2.3). -/
def abcBlock (a : Alg) : List Byte := paddedMessage a [0x61, 0x62, 0x63]

set_option maxRecDepth 20000 in
/-- V-SHA1-3: W_16..W_19, W_79, and S after round 0. -/
theorem test_sha1_schedule : ((sha1Words (abcBlock .sha1)).drop 16).take 4 = [0xc2c4c700, 0x00000000, 0x00000030, 0x85898e01] ∧
    (sha1Words (abcBlock .sha1))[79]? = some 0x822e0879 := by decide

set_option maxRecDepth 20000 in
/-- V-SHA256-3: W_16..W_19 and W_63. -/
theorem test_sha256_schedule :
    ((sha256Words (abcBlock .sha256)).drop 16).take 4 = [0x61626380, 0x000f0000, 0x7da86405, 0x600003c6] ∧
    (sha256Words (abcBlock .sha256))[63]? = some 0x12b1edeb := by decide

set_option maxRecDepth 20000 in
/-- V-SHA512-3: W_16..W_19 and W_79. -/
theorem test_sha512_schedule : ((sha512Words (abcBlock .sha512)).drop 16).take 4 =
      [0x6162638000000000, 0x00030000000000c0, 0x0a9699a24c700003, 0x00000c0060000603] ∧
    (sha512Words (abcBlock .sha512))[79]? = some 0x92aeeed1a7bcf7d2 := by decide

set_option maxRecDepth 20000 in
/-- Section 2.4: SHA-512/224 keeps the high half of H[3] in DIGEST6 and drops the low half. -/
theorem test_sha512_224 : (after (cmd 0x00000003) (holding .absorb .sha512_224 [0x61, 0x62, 0x63])).map
    (fun t => (digestWord t 0, digestWord t 6, digestWord t 7)) = some (0x4634270f, 0x3e8924aa, 0) := by decide

set_option maxRecDepth 20000 in
/-- R223: how the SHA-512/256 IV was obtained. -/
theorem test_sha512_256_iv :
    digestWords .sha512
        { a := sha512IV.a ^^^ 0xa5a5a5a5a5a5a5a5, b := sha512IV.b ^^^ 0xa5a5a5a5a5a5a5a5
          c := sha512IV.c ^^^ 0xa5a5a5a5a5a5a5a5, d := sha512IV.d ^^^ 0xa5a5a5a5a5a5a5a5
          e := sha512IV.e ^^^ 0xa5a5a5a5a5a5a5a5, f := sha512IV.f ^^^ 0xa5a5a5a5a5a5a5a5
          g := sha512IV.g ^^^ 0xa5a5a5a5a5a5a5a5, h := sha512IV.h ^^^ 0xa5a5a5a5a5a5a5a5 }
        [0x53, 0x48, 0x41, 0x2d, 0x35, 0x31, 0x32, 0x2f, 0x32, 0x35, 0x36] = sha512t256IV := by decide

/-- The first 80 primes. -/
def primes : List Nat :=
  [2, 3, 5, 7, 11, 13, 17, 19, 23, 29, 31, 37, 41, 43, 47, 53, 59, 61, 67, 71]
  ++ [73, 79, 83, 89, 97, 101, 103, 107, 109, 113, 127, 131, 137, 139, 149, 151, 157, 163, 167, 173]
  ++ [179, 181, 191, 193, 197, 199, 211, 223, 227, 229, 233, 239, 241, 251, 257, 263, 269, 271, 277, 281]
  ++ [283, 293, 307, 311, 313, 317, 331, 337, 347, 349, 353, 359, 367, 373, 379, 383, 389, 397, 401, 409]

/-- k is the first w bits of the fractional part of the cube root of p (45_sha256.md, 46_sha512.md, introductions). -/
def cubeRootBits (w p k : Nat) : Bool :=
  (List.range 8).any fun i => decide ((i * 2 ^ w + k) ^ 3 ≤ p * 2 ^ (3 * w) ∧ p * 2 ^ (3 * w) < (i * 2 ^ w + k + 1) ^ 3)

/-- k is the first w bits of the fractional part of the square root of p. -/
def squareRootBits (w p k : Nat) : Bool :=
  (List.range 8).any fun i => decide ((i * 2 ^ w + k) ^ 2 ≤ p * 2 ^ (2 * w) ∧ p * 2 ^ (2 * w) < (i * 2 ^ w + k + 1) ^ 2)

theorem test_sha256K : sha256K.length = 64 ∧ (primes.zip sha256K).all (fun x => cubeRootBits 32 x.1 x.2.toNat) = true := by decide

theorem test_sha512K : sha512K.length = 80 ∧ (primes.zip sha512K).all (fun x => cubeRootBits 64 x.1 x.2.toNat) = true := by decide

/-- The SHA-512 IV is of the first eight primes, the SHA-384 IV of the next eight. -/
theorem test_sha512IV : (primes.zip (liveWords .sha512 sha512IV)).all (fun x => squareRootBits 64 x.1 x.2) = true ∧
    ((primes.drop 8).zip (liveWords .sha384 sha384IV)).all (fun x => squareRootBits 64 x.1 x.2) = true := by decide

/-! ### Assembler text -/

/-- R100 to R103: a line of each shape. -/
theorem test_asm :
    parseLine "  init sha512_224   # open".toList = some (.statement (.command (.init 5))) ∧
    parseLine "init 7".toList = some (.statement (.command (.init 7))) ∧
    parseLine "write DATA, 0x61626364, strb=0b0011".toList = some (.statement (.write .data 0x61626364 0b0011)) ∧
    parseLine "read DIGEST15".toList = some (.statement (.read (.digest 15))) ∧
    parseLine "read @0x05".toList = some (.statement (.read (.raw 0x05))) ∧
    parseLine "feedb x\"61 62\"".toList = some (.feedb [0x61, 0x62]) ∧
    parseLine "hash sha1, \"ab\"".toList = some (.hash 0 [0x61, 0x62]) ∧
    parseLine "feed 5".toList = none := by decide

/-- R104 and P5: feedb of five bytes is a FEED 4 and a FEED 1. -/
theorem test_feedb : feedb [0x61, 0x62, 0x63, 0x64, 0x65] =
    [.write .data 0x61626364 0b1111, .command (.feed 4), .write .data 0x65000000 0b1111, .command (.feed 1)] := by decide

/-- The printer's text is read back (R102). -/
theorem test_print : parseLine (Statement.text (.write (.raw 0x05) 0x61626364 0b0011)) =
      some (.statement (.write (.raw 0x05) 0x61626364 0b0011)) ∧
    parseLine (Statement.text (.command .finalizeReset)) = some (.statement (.command .finalizeReset)) := by decide

/-! ### The sequencer -/

/-- R306, R307: a FEED that fills no block is acknowledged one cycle after it is accepted, and its ack lasts one cycle. -/
theorem test_sequencer :
    let q : Sequencer := { engine := { holding .absorb .sha1 [] with data := 0x61626364 }, micro := .idle, job := .feed }
    let r := q.cycle false (some (.write 0x00 0x00000402 0b1111))
    r.micro = .ack ∧ r.engine.out = .ackWrite ∧ r.engine.count = 4 ∧
      (r.cycle false none).micro = .idle ∧ (r.cycle false none).engine.out = .noAck := by decide

/-! ### Witnesses: states and operands that meet the hypotheses of the statements, at the boundary of each clause -/

/-- StepRunsDecodedCommand: a CMD write of a command's word. -/
theorem witness_stepRunsDecodedCommand : CmdWrite (given (cmd 0x00000402) State.reset) 0x00000402 [] ∧
    decoded 0x00000402 = some (.feed 4) ∧ decodeTableWord 32 0x00000402 = some (.feed 4) := ⟨rfl, by decide, by decide⟩

/-- DecodeEncodeAgree, DecodeRejectsExactlyIllegalWords: both sides occur. -/
theorem witness_decode : decoded 0x00000061 = some (.init 6) ∧ (Instr.init 6).wellFormed = true ∧ rejection 0x00000071 = some .badAlg :=
  by decide

/-- EveryStepCompletes: a state with no host event. -/
theorem witness_everyStepCompletes : State.reset.port = [] := rfl

/-- ReadReturnsRegister: an offset for each clause, at the ends of its range: misaligned 0x01 and 0xff, the four single registers,
COUNT0 and COUNT3, DIGEST0 and DIGEST15, and the unmapped 0x60 and 0xfc. -/
theorem witness_readReturnsRegister : (given (rd 0x01) State.reset).port = [rd 0x01] ∧ (0x01#8).toNat % 4 ≠ 0 ∧
    (0xff#8).toNat % 4 ≠ 0 ∧ (0x00#8 = 0x00 ∧ 0x04#8 = 0x04 ∧ 0x08#8 = 0x08 ∧ 0x0C#8 = 0x0C) ∧
    (0x10#8).toNat = 0x10 + 4 * (0 : Fin 4).val ∧ (0x1C#8).toNat = 0x10 + 4 * (3 : Fin 4).val ∧
    (0x20#8).toNat = 0x20 + 4 * (0 : Fin 16).val ∧ (0x5C#8).toNat = 0x20 + 4 * (15 : Fin 16).val ∧
    0x60 ≤ (0x60#8).toNat ∧ 0x60 ≤ (0xfc#8).toNat := by decide

/-- DataRegisterWrites: a DATA write, and a step that changes DATA. -/
theorem witness_dataRegisterWrites : (given (wr 0x04 0x61626364) State.reset).port = [.txn (.write 0x04#8 0x61626364 0b1111#4)] ∧
    ∃ t, step (given (wr 0x04 0x61626364) State.reset) = .next t ∧ t.data ≠ (given (wr 0x04 0x61626364) State.reset).data :=
  ⟨rfl, _, rfl, by decide⟩

/-- ResetEdgeResets: with and without a transaction outstanding. -/
theorem witness_resetEdgeResets : (given (.rst none) State.reset).port = [.rst none] ∧
    (given (.rst (some (.read 0x08))) State.reset).port = [.rst (some (.read 0x08))] := ⟨rfl, rfl⟩

/-- WindowMapsToPort: the narrowest and the widest narrow access, the first address past the window, and the widths next to the
served ones. -/
theorem witness_windowMapsToPort : (1 ≤ 1 ∧ 1 < 4) ∧ (1 ≤ 3 ∧ 3 < 4) ∧
    (Config.engineBase + 256 < Config.engineBase ∨ Config.engineBase + 256 ≤ Config.engineBase + 256) ∧
    (0 = 0 ∨ 4 < 0) ∧ (5 = 0 ∨ 4 < 5) :=
  ⟨by decide, by decide, .inr (Nat.le_refl _), by decide, by decide⟩

/-- NopHasNoEffect: a CMD write of zero. -/
theorem witness_zeroWrite : CmdWrite (given (cmd 0x00000000) State.reset) 0x00000000 [] := rfl

/-- NopHasNoEffect, ClrerrClearsErrors: CMD writes of words with the opcode and another bit. -/
theorem witness_strayBits : CmdWrite (given (cmd 0x00000010) State.reset) 0x00000010 [] ∧
    CmdWrite (given (cmd 0x00000085) State.reset) 0x00000085 [] ∧ (0x00000010#32).extractLsb' 0 4 = 0 ∧ 0x00000010#32 ≠ 0 ∧
    (0x00000085#32).extractLsb' 0 4 = 5 ∧ 0x00000085#32 ≠ 0x00000005#32 :=
  ⟨rfl, rfl, by decide, by decide, by decide, by decide⟩

/-- StatusFields: a write to STATUS. -/
theorem witness_statusWrite : (given (wr 0x08 0) State.reset).port = [.txn (.write 0x08#8 0 0b1111#4)] := rfl

/-- InitOpensMessage, and the premises of the streaming statements: each phase but FAULT. -/
theorem witness_notFault : State.reset.phase ≠ .fault ∧ (holding .absorb .sha1 adam).phase ≠ .fault ∧
    (holding .done .sha1 adam).phase ≠ .fault := by decide

set_option maxRecDepth 20000 in
/-- FeedAbsorbsLanes: FEED 0 and FEED 4; one byte short of a block, exactly a block, and past it; the last count below the
ceiling, and the first at it. -/
theorem witness_feedAbsorbsLanes : (holding .absorb .sha256 (zeros 59)).phase = .absorb ∧ (0#3).toNat ≤ 4 ∧ (4#3).toNat ≤ 4 ∧
    (holding .absorb .sha256 (zeros 59)).count.toNat % 64 + 4 < 64 ∧ 64 ≤ (holding .absorb .sha256 (zeros 60)).count.toNat % 64 + 4 ∧
    64 ≤ (holding .absorb .sha256 (zeros 63)).count.toNat % 64 + 4 ∧
    PassesCeiling 4 { holding .absorb .sha256 [] with count := 0x1ffffffffffffffc } ∧
    ¬ PassesCeiling 4 { holding .absorb .sha256 [] with count := 0x1ffffffffffffffb } := by
  unfold PassesCeiling
  decide

/-- FinalizeLatchesDigest, FinalizeResetLatchesAndReopens, FinalizeResetReopensLikeInit, ChunkInvariance. -/
theorem witness_absorb : (holding .absorb .sha384 adam).phase = .absorb := rfl

/-- IllegalOperandsRaiseIllegal. -/
theorem witness_illegalOperands : 5 ≤ (5#3).toNat ∧ 5 ≤ (7#3).toNat := by decide

/-- PhaseMatrix, StateErrorRaisedExactly: a refused and an accepted command, in each phase that refuses one. -/
theorem witness_phaseMatrix : (Instr.feed 4).wellFormed = true ∧ PhaseRefuses (.feed 4) .uninit ∧ PhaseRefuses .finalize .done ∧
    PhaseRefuses (.init 0) .fault ∧ ¬ PhaseRefuses (.init 6) .done ∧ ¬ PhaseRefuses .nop .fault ∧
    ¬ PhaseRefuses .finalizeReset .absorb ∧ Instr.nop ≠ .clrerr := by
  refine ⟨by decide, ?_, ?_, rfl, ?_, ?_, ?_, by decide⟩ <;> simp [PhaseRefuses]

/-- IllegalRaisedExactly: a word for each cause of R271, and a step that sets E_ILLEGAL. -/
theorem witness_illegalRaisedExactly : IllegalCause 0x00000006 ∧ IllegalCause 0x0000000f ∧ IllegalCause 0x00000080 ∧
    IllegalCause 0x80000003 ∧ IllegalCause 0x00000071 ∧ IllegalCause 0x00000412 ∧ IllegalCause 0x00000502 ∧
    IllegalCause 0x00000101 ∧ CmdWrite (given (cmd 0x00000006) State.reset) 0x00000006 [] ∧
    ∃ t, step (given (cmd 0x00000006) State.reset) = .next t ∧ State.reset.eIllegal = false ∧ t.eIllegal = true := by
  refine ⟨?_, ?_, ?_, ?_, ?_, ?_, ?_, ?_, rfl, _, rfl, rfl, rfl⟩ <;> unfold IllegalCause <;> decide

/-- StateErrorRaisedExactly: a step that sets E_STATE. -/
theorem witness_stateErrorRaisedExactly : CmdWrite (given (cmd 0x00000402) State.reset) 0x00000402 [] ∧
    decoded 0x00000402 = some (.feed 4) ∧ PhaseRefuses (.feed 4) State.reset.phase ∧
    ∃ t, step (given (cmd 0x00000402) State.reset) = .next t ∧ State.reset.eState = false ∧ t.eState = true :=
  ⟨rfl, by decide, by simp [PhaseRefuses, State.reset], _, rfl, rfl, rfl⟩

/-- AccessErrorRaisedExactly: each cause, at the ends of its range, and a step that sets E_ACCESS. -/
theorem witness_accessErrorRaisedExactly : (0x05#8).toNat % 4 ≠ 0 ∧ 0b0111#4 ≠ 0b1111#4 ∧ 0x08 ≤ (0x08#8).toNat ∧
    0x08 ≤ (0xff#8).toNat ∧ ∃ t, step (given (wr 0x08 0) State.reset) = .next t ∧ State.reset.eAccess = false ∧ t.eAccess = true :=
  ⟨by decide, by decide, by decide, by decide, _, rfl, rfl, rfl⟩

set_option maxRecDepth 20000 in
/-- LengthWarningOnlyFromFeed: a step that sets LEN_OVF (V-CNT-7). -/
theorem witness_lengthWarning : PassesCeiling 0 { holding .absorb .sha256 [] with count := 0x2000000000000000 } ∧ (0#3).toNat ≤ 4 ∧
    ∃ t, step (given (cmd 0x00000002) { holding .absorb .sha256 [] with count := 0x2000000000000000 }) = .next t ∧
      t.lenOvf = true := by
  refine ⟨?_, by decide, _, rfl, by decide⟩
  unfold PassesCeiling
  decide

/-- AtMostOneErrorPerTransaction, FirstErrorIsKept: a second error after a first (V-ERR-23). -/
theorem witness_firstErrorIsKept :
    ∃ t, step (given (cmd 0x00000006) { State.reset with eState := true, ecode := 2, errinfo := 0x00000402 }) = .next t ∧
      ({ State.reset with eState := true, ecode := 2, errinfo := 0x00000402 } : State).ecode ≠ 0 ∧ t.eIllegal = true :=
  ⟨_, rfl, by decide, rfl⟩

/-- AtMostOneErrorPerTransaction: a step that raises a flag in FAULT. -/
theorem witness_flagInFault : ∃ t, step (given (cmd 0x00000001) (holding .fault .sha256 [])) = .next t ∧
    (holding .fault .sha256 []).eState = false ∧ t.eState = true ∧ t.phase = .fault := ⟨_, rfl, rfl, rfl, rfl⟩

/-- StickyFlagsClearedOnlyByClrerrOrReset: a step that clears one. -/
theorem witness_sticky : ∃ t, step (given (cmd 0x00000005) { State.reset with eState := true, ecode := 2 }) = .next t ∧
    t.eState = false := ⟨_, rfl, rfl⟩

set_option maxRecDepth 20000 in
/-- OnlyInitWritesAlg, OnlyCommandsChangeCountOrDigest, PhaseTransitions, DvalidSetAndCleared: INIT in DONE changes them. -/
theorem witness_initChanges : ∃ t, step (given (cmd 0x00000011) { holding .done .sha1 adam with dvalid := true }) = .next t ∧
    t.alg ≠ Alg.sha1 ∧ t.count ≠ (holding .done .sha1 adam).count ∧ t.dvalid = false ∧ t.phase = .absorb :=
  ⟨_, rfl, by decide, by decide, rfl, rfl⟩

set_option maxRecDepth 20000 in
/-- DvalidSetAndCleared: a step that sets DVALID. -/
theorem witness_dvalidSet : ∃ t, step (given (cmd 0x00000003) (holding .absorb .sha1 adam)) = .next t ∧
    (holding .absorb .sha1 adam).dvalid = false ∧ t.dvalid = true := ⟨_, rfl, rfl, rfl⟩

/-- FaultNeverEnteredAndOnlyResetLeavesIt: a step from FAULT, and one that leaves it. -/
theorem witness_fault : (holding .fault .sha256 []).phase = .fault ∧
    ∃ t, step (given (.rst none) (holding .fault .sha256 [])) = .next t ∧ t.phase ≠ .fault := ⟨rfl, _, rfl, by decide⟩

set_option maxRecDepth 20000 in
/-- OversizeTailEntersFault: the shortest tail that is too long. -/
theorem witness_oversizeTail : (holding .absorb .sha256 []).alg.blockBytes ≤ (zeros 64).length := by decide

/-- CounterOffsetIsLowBits: an algorithm of each width. -/
theorem witness_widths : Alg.blockBytes .sha1 = 64 ∧ Alg.blockBytes .sha512 = 128 ∧ Alg.wordBits .sha1 = 32 ∧
    Alg.wordBits .sha512 = 64 := by decide

/-- PadNewConstruction, PadderWritesOneOrTwoBlocks: the longest tail of one block and the shortest of two, for both widths. -/
theorem witness_padNew : (zeros 55).length < 64 ∧ (zeros 8).length = Alg.footerBytes .sha1 ∧
    (zeros 55).length + 1 + Alg.footerBytes .sha1 ≤ Alg.blockBytes .sha1 ∧
    Alg.blockBytes .sha1 < (zeros 56).length + 1 + Alg.footerBytes .sha1 ∧
    (zeros 111).length + 1 + Alg.footerBytes .sha512 ≤ Alg.blockBytes .sha512 ∧
    Alg.blockBytes .sha512 < (zeros 112).length + 1 + Alg.footerBytes .sha512 := by decide

/-- Sha1RoundStep: a round input with a selector. -/
theorem witness_sha1RoundStep : (⟨0, 0, some 3⟩ : RoundInput).sel = some 3 := rfl

/-- The schedule statements and MergeAddsLanes: the ends of each range of t and of the lanes. -/
theorem witness_ranges : 15 < 16 ∧ 16 ≤ 16 ∧ 79 < 80 ∧ 63 < 64 ∧ 4 < Alg.stateWords .sha1 ∧ 7 < Alg.stateWords .sha512 := by decide

/-- DigestRegistersHoldH: the last register inside and the first beyond OUT, for both widths. -/
theorem witness_digestRegisters : 4 * 4 < Alg.outBytes .sha1 ∧ ¬ 4 * 5 < Alg.outBytes .sha1 ∧
    8 * 3 < Alg.outBytes .sha512_224 ∧ ¬ 8 * 3 + 4 < Alg.outBytes .sha512_224 := by decide

/-- StepKeepsInvariants: a state with the invariants that is not the reset state, and a step from it. -/
theorem witness_invariants : (holding .absorb .sha1 adam).Inv ∧ ∃ t, step (given (cmd 0) (holding .absorb .sha1 adam)) = .next t := by
  refine ⟨⟨by decide, by decide, by decide, by decide, by decide, by decide, rfl, rfl⟩, _, rfl⟩

set_option maxRecDepth 20000 in
/-- DeadStorageIsUnobservable: two different states that agree, a dead byte of BUF apart. -/
theorem witness_deadStorage : Agree (holding .absorb .sha1 adam) { holding .absorb .sha1 adam with buf := writeBytes State.reset.buf 0 (adam ++ [1]) } ∧
    holding .absorb .sha1 adam ≠ { holding .absorb .sha1 adam with buf := writeBytes State.reset.buf 0 (adam ++ [1]) } := by
  refine ⟨⟨rfl, rfl, rfl, rfl, rfl, rfl, rfl, rfl, rfl, rfl, rfl, rfl, rfl, rfl, rfl, rfl, fun _ => rfl, fun _ => by decide⟩, by decide⟩

/-- "adam" fed as 4 and as 1 + 3 bytes. -/
def adamWhole : List FeedItem := [⟨0x6164616d, 4⟩]
def adamSplit : List FeedItem := [⟨0x61000000, 1⟩, ⟨0x64616d00, 3⟩]

/-- ChunkInvariance, StreamingComputesMessageDigest, ResetEquivalence: two sequences of FEEDs of the same bytes. -/
theorem witness_feeds : adamWhole.all FeedItem.ok = true ∧ adamSplit.all FeedItem.ok = true ∧ adamWhole ≠ [] ∧ adamSplit ≠ [] ∧
    feedBytes adamWhole = feedBytes adamSplit ∧ feedBytes adamWhole = adam ∧ adamWhole ≠ adamSplit := by decide

end Sys2Proof.Tests
end

section
/-! PROOFS. The reference sequencer refines the transaction-level machine (00_scope.md R6; 70_reset_and_hazards.md R306, R307):
what a transaction does at its port, the time each part of the sequencer takes to the acknowledge, and O56. -/

namespace Sys2Proof.Machine

/-! ### The word a command was decoded from -/

/-- A command word is its five fields (30_encoding.md R91). -/
theorem word_eq_fields (cw : Word) :
    cw = rsvField cw ++ (nbField cw ++ (resBit cw ++ (algField cw ++ opField cw))) := by
  have halg : algField cw ++ opField cw = cw.extractLsb' 0 7 :=
    BitVec.extractLsb'_append_extractLsb'_eq_extractLsb' rfl
  have hres : resBit cw ++ cw.extractLsb' 0 7 = cw.extractLsb' 0 8 :=
    BitVec.extractLsb'_append_extractLsb'_eq_extractLsb' rfl
  have hnb : nbField cw ++ cw.extractLsb' 0 8 = cw.extractLsb' 0 11 :=
    BitVec.extractLsb'_append_extractLsb'_eq_extractLsb' rfl
  have hrsv : rsvField cw ++ cw.extractLsb' 0 11 = cw.extractLsb' 0 32 :=
    BitVec.extractLsb'_append_extractLsb'_eq_extractLsb' rfl
  rw [halg, hres, hnb, hrsv, BitVec.extractLsb'_eq_self]

theorem plainCommand_fields (cw : Word) (i j : Instr) (h : plainCommand cw i = .ok j) :
    algField cw = 0 ∧ nbField cw = 0 := by
  unfold plainCommand at h
  split at h
  · cases h
  · split at h
    · cases h
    · exact ⟨by simp_all, by simp_all⟩

/-- A command without operands has the one word with its OP and zeros (R91, R95). -/
theorem encode_of_plainCommand (cw : Word) (i j : Instr) (op : BitVec 4) (h : plainCommand cw j = .ok i)
    (hrsv : rsvField cw = 0) (hres : resBit cw = 0) (hop : (opField cw).toNat = op.toNat)
    (hj : encode j = 0#21 ++ (0#3 ++ (0#1 ++ (0#3 ++ op)))) : encode i = cw := by
  obtain ⟨halg, hnb⟩ := plainCommand_fields cw j i h
  rw [plainCommand_ok cw j i h, word_eq_fields cw, hrsv, hnb, hres, halg, BitVec.eq_of_toNat_eq hop, hj]
  rfl

/-- The decoder accepts one word only for each command (R98, R99). -/
theorem encode_decode (cw : Word) (i : Instr) (h : decode cw = .ok i) : encode i = cw := by
  unfold decode at h
  split at h
  · cases h
  rename_i hreserved
  obtain ⟨hrsv, hres⟩ : rsvField cw = 0 ∧ resBit cw = 0 := by simpa using hreserved
  split at h
  case h_1 hop => exact encode_of_plainCommand cw i _ 0#4 h hrsv hres hop rfl
  case h_2 hop =>
    split at h
    · cases h
    split at h
    · cases h
    rename_i hnb
    obtain rfl := Except.ok.inj h
    refine Eq.trans ?_ (word_eq_fields cw).symm
    rw [hrsv, not_not.mp hnb, hres, show opField cw = 1#4 from BitVec.eq_of_toNat_eq hop]
    generalize algField cw = alg
    revert alg
    decide
  case h_3 hop =>
    split at h
    · cases h
    rename_i halg
    split at h
    · cases h
    obtain rfl := Except.ok.inj h
    refine Eq.trans ?_ (word_eq_fields cw).symm
    rw [hrsv, not_not.mp halg, hres, show opField cw = 2#4 from BitVec.eq_of_toNat_eq hop]
    generalize nbField cw = nb
    revert nb
    decide
  case h_4 hop => exact encode_of_plainCommand cw i _ 3#4 h hrsv hres hop rfl
  case h_5 hop => exact encode_of_plainCommand cw i _ 4#4 h hrsv hres hop rfl
  case h_6 hop => exact encode_of_plainCommand cw i _ 5#4 h hrsv hres hop rfl
  case h_7 => cases h

/-! ### The port's output and the command's effect -/

/-- Absorbing does not read the port's output. -/
theorem absorbBytes_buf_withOut (d : List Byte) (o : PortOut) (s : State) :
    (absorbBytes d { s with out := o }).buf = (absorbBytes d s).buf := by
  simp only [absorbBytes]
  rw [absorbBlocks_eq _ _ _ (by simp), absorbBlocks_eq _ _ _ (by simp), handle_eq, handle_eq]
  simp only [apply_ite State.buf]
  rfl

/-- No effect reads the port's output: it may be set before the command or after it. -/
theorem effectOf_withOut (i : Instr) (o : PortOut) (s : State) :
    effectOf i { s with out := o } = { effectOf i s with out := o } := by
  cases i with
  | nop => rfl
  | init alg => simp only [effectOf]; cases algOperand alg <;> rfl
  | feed nb =>
    simp only [effectOf, absorb_eq, absorbBytes_buf_withOut]
    rfl
  | finalize => simp only [effectOf, finalizeSequence_eq]; rfl
  | finalizeReset => simp only [effectOf, finalizeSequence_eq]; rfl
  | clrerr => rfl

/-! ### A FEED's block -/

/-- Input shorter than a block leaves the loop of R160 at once. -/
theorem absorbBlocks_short (fuel : Nat) (d : List Byte) (s : State) (h : d.length < s.alg.blockBytes) :
    absorbBlocks fuel d s = (d, s) := by
  cases fuel with
  | zero => rfl
  | succ fuel => rw [absorbBlocks, if_neg (by omega)]

/-- Input that does not fill the block only joins the tail (R160). -/
theorem absorb_short (d : List Byte) (cw : Word) (s : State) (h : counterOffset s + d.length < s.alg.blockBytes) :
    absorb d cw s = counterAdd d.length cw { s with buf := writeBytes s.buf (counterOffset s) d } := by
  simp only [absorb, absorbBytes, if_pos h]

/-- Input that fills one block (R160), in the order of the sequencer: the counter and the remainder before the block. -/
theorem absorb_block (d : List Byte) (cw : Word) (s : State) (h : s.alg.blockBytes ≤ counterOffset s + d.length)
    (h2 : counterOffset s + d.length < 2 * s.alg.blockBytes) :
    let room := s.alg.blockBytes - counterOffset s
    let filled := writeBytes s.buf (counterOffset s) (d.take room)
    absorb d cw s = handle (filled.toList.take s.alg.blockBytes)
      (counterAdd d.length cw { s with buf := writeBytes filled 0 (d.drop room) }) := by
  have hoff := counterOffset_lt s
  simp only [absorb, absorbBytes, if_neg (Nat.not_lt.mpr h)]
  rw [absorbBlocks_short _ _ _ (by rw [handle_alg, List.length_drop]; dsimp only; omega)]
  simp only [handle_eq, counterAdd_eq]
  rfl

/-! ### The padder's blocks -/

/-- A finalize's padding is one block or two, as R306 counts them (43_streaming_padder.md R164). -/
theorem padNew_tail_cases (s : State) :
    (∃ blk, padNew s.alg (tail s) (counterFooter s) = some (.finalBlock blk) ∧ finalizeBlocks s = 1) ∨
      ∃ blk footer, padNew s.alg (tail s) (counterFooter s) = some (.penultimateBlock blk footer) ∧
        finalizeBlocks s = 2 := by
  have hoff := counterOffset_lt s
  by_cases h : counterOffset s + 1 + s.alg.footerBytes ≤ s.alg.blockBytes
  · exact .inl ⟨_, by rw [padNew, length_tail, if_pos hoff, if_pos h], if_pos h⟩
  · exact .inr ⟨_, _, by rw [padNew, length_tail, if_pos hoff, if_neg h], if_neg h⟩

/-- A finalize whose padding is built runs the padder's loop, latches and ends (R163). -/
theorem finalizeSequence_of_padNew (cw : Word) (reset : Bool) (s : State) (p : Pad)
    (h : padNew s.alg (tail s) (counterFooter s) = some p) :
    finalizeSequence cw reset s =
      finishFinalize reset (latchDigest { padLoop 2 { s with pad := p } with pad := .none }) := by
  simp only [finalizeSequence, finalizeFrom, h]

/-! ### The time to the acknowledge -/

/-- With `tr` held at the port, ack is raised for the first time after n cycles, in the engine state t. -/
structure AcksAfter (tr : Transaction) (n : Nat) (q : Sequencer) (t : State) : Prop where
  engine : (Sequencer.cycles tr n q).engine = t
  micro : (Sequencer.cycles tr n q).micro = .ack
  first : ∀ k < n, (Sequencer.cycles tr k q).micro ≠ .ack

namespace AcksAfter

/-- A completed transaction is acknowledged at once. -/
theorem complete (tr : Transaction) (q : Sequencer) (out : PortOut) (s : State) :
    AcksAfter tr 0 (q.complete out s) { s with out := out } :=
  ⟨rfl, rfl, fun k hk => absurd hk (Nat.not_lt_zero k)⟩

/-- A transaction completed by the cycle that accepts it has a latency of 1. -/
theorem complete_of_latency_one {n : Nat} (hn : 1 = 1 + n) (tr : Transaction) (q : Sequencer) (out : PortOut) (s : State) :
    AcksAfter tr n (q.complete out s) { s with out := out } := by
  obtain rfl : 0 = n := Nat.add_left_cancel hn
  exact complete tr q out s

/-- m cycles without ack come on top of the time from there. -/
theorem after {tr : Transaction} {m n : Nat} {q : Sequencer} {t : State}
    (hm : ∀ k < m, (Sequencer.cycles tr k q).micro ≠ .ack) (h : AcksAfter tr n (Sequencer.cycles tr m q) t) :
    AcksAfter tr (m + n) q t where
  engine := by rw [cycles_add]; exact h.engine
  micro := by rw [cycles_add]; exact h.micro
  first := fun k hk => by
    by_cases hlt : k < m
    · exact hm k hlt
    · obtain ⟨d, rfl⟩ := Nat.exists_eq_add_of_le (Nat.not_lt.mp hlt)
      rw [cycles_add]
      exact h.first d (by omega)

/-- One cycle without ack. -/
theorem cycle {tr : Transaction} {n : Nat} {q : Sequencer} {t : State} (hq : q.micro ≠ .ack)
    (h : AcksAfter tr n (q.cycle false (some tr)) t) : AcksAfter tr (1 + n) q t :=
  after (m := 1) (fun k hk => by rwa [Nat.lt_one_iff.mp hk]) h

/-- A block takes T_round cycles, and MERGE leads on from Handle's state (R306, R307). -/
theorem startBlock {tr : Transaction} {n : Nat} {q : Sequencer} {job : Job} {block : List Byte} {s t : State} {a : Alg}
    (ha : s.alg = a)
    (h : AcksAfter tr n (Sequencer.afterMerge { q with job := job } (handle block s)) t) :
    AcksAfter tr (referenceTRound a + n) (q.startBlock job block s) t := by
  subst ha
  refine after (fun k hk => cycles_block_noAck tr q job block s k (Nat.lt_succ_iff.mp hk)) ?_
  rw [referenceTRound, cycles_block]
  exact h

/-- A FEED that fills no block is done by the cycle that accepts it (R306). -/
theorem beginFeed_short (tr : Transaction) (q : Sequencer) (d : List Byte) (cw : Word) (s : State)
    (h : counterOffset s + d.length < s.alg.blockBytes) :
    AcksAfter tr 0 (q.beginFeed d cw s) { absorb d cw s with out := .ackWrite } := by
  rw [Sequencer.beginFeed, if_pos h, absorb_short d cw s h]
  exact complete _ _ _ _

/-- A FEED that fills a block takes the block's T_round more (R306). -/
theorem beginFeed_block (tr : Transaction) (q : Sequencer) (d : List Byte) (cw : Word) (s : State)
    (h : s.alg.blockBytes ≤ counterOffset s + d.length) (h2 : counterOffset s + d.length < 2 * s.alg.blockBytes) :
    AcksAfter tr (referenceTRound s.alg) (q.beginFeed d cw s) { absorb d cw s with out := .ackWrite } := by
  rw [Sequencer.beginFeed, if_neg (Nat.not_lt.mpr h), absorb_block d cw s h h2]
  refine startBlock (n := 0) (counterAdd_alg _ _ _) ?_
  exact complete _ _ _ _

/-- The last padding block: T_round cycles, and one to latch. -/
theorem lastPad (tr : Transaction) (q : Sequencer) (reset : Bool) (n : Nat) (s : State) (blk : List Byte)
    (h : s.pad = .finalBlock blk) :
    AcksAfter tr (referenceTRound s.alg + 1) (q.nextPadBlock reset s)
      { finishFinalize reset (latchDigest { padLoop (n + 1) s with pad := .none }) with out := .ackWrite } := by
  refine after (fun k hk => cycles_block_noAck tr q _ _ _ k (Nat.lt_succ_iff.mp hk)) ?_
  rw [referenceTRound, (cycles_lastPad tr n q reset s blk h).1]
  refine cycle (n := 0) ?_ ?_
  · exact (by decide : Micro.latch ≠ .ack)
  · exact complete _ _ _ _

/-- Two padding blocks: T_round cycles each, and one to latch. -/
theorem twoPads (tr : Transaction) (q : Sequencer) (reset : Bool) (s : State) (blk footer : List Byte)
    (h : s.pad = .penultimateBlock blk footer) :
    AcksAfter tr (2 * referenceTRound s.alg + 1) (q.nextPadBlock reset s)
      { finishFinalize reset (latchDigest { padLoop 2 s with pad := .none }) with out := .ackWrite } := by
  rw [two_mul, Nat.add_assoc]
  refine after (fun k hk => cycles_block_noAck tr q _ _ _ k (Nat.lt_succ_iff.mp hk)) ?_
  rw [referenceTRound, cycles_firstPad tr q reset s blk footer h, padLoop_penultimate 1 s blk footer h]
  have hl := lastPad tr q reset 0 (handle blk { s with
    pad := .finalBlock (zeros (s.alg.blockBytes - s.alg.footerBytes) ++ footer) }) _ (handle_pad _ _)
  rwa [handle_alg] at hl

/-- A finalize: its blocks and the latch (R306). -/
theorem beginFinalize (tr : Transaction) (q : Sequencer) (cw : Word) (reset : Bool) (s : State) (n : Nat)
    (hn : referenceTCmd (.finalize (finalizeBlocks s)) s.alg = 1 + n) :
    AcksAfter tr n (q.beginFinalize cw reset s) { finalizeSequence cw reset s with out := .ackWrite } := by
  obtain rfl : finalizeBlocks s * referenceTRound s.alg + 1 = n := by
    simp only [referenceTCmd] at hn
    omega
  rcases padNew_tail_cases s with ⟨blk, hp, hb⟩ | ⟨blk, footer, hp, hb⟩
  · rw [hb, Nat.one_mul, Sequencer.beginFinalize, hp, finalizeSequence_of_padNew cw reset s _ hp]
    exact lastPad tr q reset 1 { s with pad := .finalBlock blk } blk rfl
  · rw [hb, Sequencer.beginFinalize, hp, finalizeSequence_of_padNew cw reset s _ hp]
    exact twoPads tr q reset { s with pad := .penultimateBlock blk footer } blk footer rfl

/-- A command that runs: with the cycle that accepted it, the latency of its row (R306). -/
theorem command (tr : Transaction) (q : Sequencer) (cw : Word) (s : State) (i : Instr) (n : Nat)
    (hd : decode cw = .ok i) (ha : allowed i s.phase = true) (hn : referenceTCmd (commandClass i s) s.alg = 1 + n) :
    AcksAfter tr n (q.beginCommand cw s) { effectOf i s with out := .ackWrite } := by
  rw [Sequencer.beginCommand, hd]
  simp only [ha, Bool.true_eq_false, if_false]
  cases i with
  | nop => exact complete_of_latency_one hn _ _ _ _
  | init alg => exact complete_of_latency_one hn _ _ _ _
  | feed nb =>
    obtain rfl := encode_decode cw _ hd
    have hnb : nb.toNat ≤ 4 := of_decide_eq_true (decode_wellFormed _ _ hd)
    have hlen := length_lanes nb s hnb
    have hoff := counterOffset_lt s
    have hB := four_lt_blockBytes s.alg
    by_cases hlt : counterOffset s + nb.toNat < s.alg.blockBytes
    · rw [commandClass, if_pos hlt] at hn
      obtain rfl : 0 = n := Nat.add_left_cancel hn
      exact beginFeed_short _ _ _ _ _ (by omega)
    · rw [commandClass, if_neg hlt] at hn
      obtain rfl : referenceTRound s.alg = n := Nat.add_left_cancel hn
      exact beginFeed_block _ _ _ _ _ (by omega) (by omega)
  | finalize =>
    obtain rfl := encode_decode cw _ hd
    exact beginFinalize _ _ _ _ _ n hn
  | finalizeReset =>
    obtain rfl := encode_decode cw _ hd
    exact beginFinalize _ _ _ _ _ n hn
  | clrerr => exact complete_of_latency_one hn _ _ _ _

/-- Every word written to CMD: with the cycle that accepts the write, the latency of its row (R306). -/
theorem beginCommand (tr : Transaction) (q : Sequencer) (v : Word) (n : Nat)
    (hn : referenceTCmd (latencyClass (.write 0x00#8 v 0b1111#4) q.engine) q.engine.alg = 1 + n) :
    ∃ t, Machine.command v { q.engine with out := .ackWrite } = .next t ∧
      AcksAfter tr n (q.beginCommand v q.engine) t := by
  rw [latencyClass, if_neg (by decide)] at hn
  rw [Machine.command]
  cases hd : decode v with
  | error e =>
    rw [hd] at hn
    rw [Sequencer.beginCommand, hd]
    exact ⟨_, rfl, complete_of_latency_one hn _ _ _ _⟩
  | ok i =>
    have hw := decode_wellFormed v i hd
    simp only [hd] at hn
    cases ha : allowed i q.engine.phase with
    | false =>
      rw [if_neg (by simp [ha])] at hn
      refine ⟨_, exec_wrongPhase i _ hw ha, ?_⟩
      simp only [Sequencer.beginCommand, hd, ha, if_true, encode_decode v i hd]
      exact complete_of_latency_one hn _ _ _ _
    | true =>
      rw [if_pos ha] at hn
      refine ⟨_, exec_allowed i _ hw ha, ?_⟩
      rw [effectOf_withOut]
      exact command tr q v q.engine i n hd ha hn

/-- Every transaction: with the cycle that accepts it, the latency of its row (R306). -/
theorem accept (tr : Transaction) (q : Sequencer) (n : Nat)
    (hn : referenceTCmd (latencyClass tr q.engine) q.engine.alg = 1 + n) :
    ∃ t, transact tr q.engine = .next t ∧ AcksAfter tr n (q.accept tr) t := by
  cases tr with
  | read off => exact ⟨_, rfl, complete_of_latency_one hn _ _ _ _⟩
  | write off v strb =>
    simp only [transact, regWrite, Sequencer.accept]
    by_cases hr : writeAccepted off strb = false
    · rw [latencyClass, if_pos (.inl hr)] at hn
      rw [if_pos hr, if_pos hr]
      exact ⟨_, rfl, complete_of_latency_one hn _ _ _ _⟩
    · rw [if_neg hr, if_neg hr]
      obtain ⟨rfl, rfl | rfl⟩ := (writeAccepted_iff off strb).mp (by simpa using hr)
      · exact beginCommand _ q v n hn
      · exact ⟨_, rfl, complete_of_latency_one hn _ _ _ _⟩

end AcksAfter

/-- Every latency of R306 has the accepting cycle in it. -/
theorem one_le_referenceTCmd (c : LatencyClass) (a : Alg) : 1 ≤ referenceTCmd c a := by
  cases c <;> simp only [referenceTCmd] <;> omega

/-- Settles O56: the sequencer accepts the transaction in its first cycle, and `AcksAfter.accept` times the rest. -/
theorem sequencerRefinesTransaction : Obligations.SequencerRefinesTransaction := by
  intro s tr j q n
  obtain ⟨m, hm⟩ := Nat.exists_eq_add_of_le (one_le_referenceTCmd (latencyClass tr s) s.alg)
  obtain ⟨t, ht, hacks⟩ := AcksAfter.accept tr q m hm
  have h : AcksAfter tr n q t := by
    rw [show n = 1 + m from hm]
    exact .cycle (by decide : Micro.idle ≠ .ack) hacks
  exact ⟨t, ht, h.engine, h.micro, h.first⟩

end Sys2Proof.Machine
end

section
/-! PROOFS. The state element by element (10_state.md): what a step does to ALG, DVALID and the sticky flags, STATUS as a view
of the state (R35), the invariants of every transaction boundary (R34, R43), and storage without a defined value (R24, R25). -/

namespace Sys2Proof.Machine

/-! ### What a step does, outcome by outcome -/

/-- A step on a CMD write is `Command` on the acknowledged write (20_memory.md R67, 47_commands.md R240). -/
theorem step_of_cmdWrite {s : State} {cw : Word} {rest : List HostEvent} (h : CmdWrite s cw rest) :
    step s = command cw { s with port := rest, out := .ackWrite } := by
  simp only [step, show s.port = _ from h, hostEvent, transact]
  rfl

/-- A case determines its step: the converse of `step_cases`. -/
theorem StepCase.step_eq {s t : State} (h : StepCase s t) : step s = .next t := by
  cases h with
  | idle h => simp only [step, h, idleCycle]
  | reset o rest h => simp only [step, h, hostEvent, resetEdge]
  | read off rest h =>
    simp only [step, h, hostEvent, transact]
    rfl
  | refused off v strb rest h hr => simp only [step, h, hostEvent, transact, regWrite, if_pos hr]
  | data v rest h =>
    simp only [step, h, hostEvent, transact]
    rfl
  | illegal cw rest e h hd => rw [step_of_cmdWrite h, Machine.command, hd]
  | wrongPhase cw i rest h hd ha =>
    rw [step_of_cmdWrite h, Machine.command, hd]
    exact exec_wrongPhase i _ (decode_wellFormed cw i hd) ha
  | command cw i rest h hd ha =>
    rw [step_of_cmdWrite h, Machine.command, hd]
    exact exec_allowed i _ (decode_wellFormed cw i hd) ha

/-- No sticky flag is cleared (10_state.md R42). -/
structure KeepsFlags (s t : State) : Prop where
  eIllegal : s.eIllegal = true → t.eIllegal = true
  eState : s.eState = true → t.eState = true
  eAccess : s.eAccess = true → t.eAccess = true
  lenOvf : s.lenOvf = true → t.lenOvf = true

/-- What a step leaves alone that neither runs a command nor is a reset edge: the message and its digest are as they were, and
no sticky flag is cleared (20_memory.md R66, R67, 60_exceptions.md R279). -/
structure KeepsMessage (s t : State) : Prop extends KeepsFlags s t where
  phase : t.phase = s.phase
  alg : t.alg = s.alg
  count : t.count = s.count
  buf : t.buf = s.buf
  acc : t.acc = s.acc
  digest : t.digest = s.digest
  dvalid : t.dvalid = s.dvalid

/-- An acknowledged transaction that runs no command, whatever it loads into DATA. -/
theorem KeepsMessage.ack (s : State) (data : Word) (out : PortOut) (port : List HostEvent) :
    KeepsMessage s { s with data := data, out := out, port := port } :=
  ⟨⟨id, id, id, id⟩, rfl, rfl, rfl, rfl, rfl, rfl, rfl⟩

/-- An error other than FAULT only records itself (60_exceptions.md R276, R279). -/
theorem KeepsMessage.raiseError (c : ErrorCode) (info : Word) (s : State) (out : PortOut) (port : List HostEvent)
    (hc : c ≠ .fault) : KeepsMessage s (raiseError c info { s with out := out, port := port }) :=
  ⟨⟨by simp +contextual, by simp +contextual, by simp +contextual, by simp +contextual⟩,
    if_neg hc, rfl, rfl, rfl, rfl, rfl, rfl⟩

/-- A step is a reset edge, or it runs the command whose word the host writes to CMD, or it keeps the message. -/
theorem step_outcome {s t : State} (h : step s = .next t) :
    (∃ o rest, s.port = .rst o :: rest) ∨
    (∃ i rest, CmdWrite s (encode i) rest ∧ i.wellFormed = true ∧ allowed i s.phase = true ∧
      t = effectOf i { s with port := rest, out := .ackWrite }) ∨
    KeepsMessage s t := by
  cases step_cases s t h with
  | idle => exact .inr (.inr (.ack s s.data .noAck s.port))
  | reset o rest hp => exact .inl ⟨o, rest, hp⟩
  | read off rest => exact .inr (.inr (.ack s s.data _ rest))
  | refused off v strb rest => exact .inr (.inr (.raiseError _ _ s _ rest (by decide)))
  | data v rest => exact .inr (.inr (.ack s v _ rest))
  | illegal cw rest => exact .inr (.inr (.raiseError _ _ s _ rest (by decide)))
  | wrongPhase cw i rest => exact .inr (.inr (.raiseError _ _ s _ rest (by decide)))
  | command cw i rest hp hd ha =>
    exact .inr (.inl ⟨i, rest, by rwa [encode_decode cw i hd], decode_wellFormed cw i hd, ha, rfl⟩)

/-! ### What a command writes -/

/-- INIT of its operand's algorithm writes ALG, and no other command does (10_state.md R22). -/
theorem effectOf_alg (i : Instr) (s : State) (hw : i.wellFormed = true) :
    (effectOf i s).alg = s.alg ∨ i = .init (effectOf i s).alg.code := by
  cases i with
  | nop => exact .inl rfl
  | init alg =>
    obtain ⟨a, ha, rfl⟩ := algOperand_of_ok alg hw
    exact .inr (by simp [effectOf])
  | feed nb => exact .inl (by simp [effectOf, absorb_eq])
  | finalize => exact .inl (by simp [effectOf, finalizeSequence_eq])
  | finalizeReset => exact .inl (by simp [effectOf, finalizeSequence_eq])
  | clrerr => exact .inl rfl

/-- The two finalizes set DVALID, INIT clears it, and no other command writes it (10_state.md R28). -/
theorem effectOf_dvalid (i : Instr) (s : State) :
    (effectOf i s).dvalid = s.dvalid ∨ (∃ alg, i = .init alg ∧ (effectOf i s).dvalid = false) ∨
      ((i = .finalize ∨ i = .finalizeReset) ∧ (effectOf i s).dvalid = true) := by
  cases i with
  | nop => exact .inl rfl
  | init alg =>
    cases ha : algOperand alg with
    | none => exact .inl (by simp [effectOf, ha])
    | some a => exact .inr (.inl ⟨alg, rfl, by simp [effectOf, ha]⟩)
  | feed nb => exact .inl (by simp [effectOf, absorb_eq])
  | finalize => exact .inr (.inr ⟨.inl rfl, by simp [effectOf, finalizeSequence_eq]⟩)
  | finalizeReset => exact .inr (.inr ⟨.inr rfl, by simp [effectOf, finalizeSequence_eq]⟩)
  | clrerr => exact .inl rfl

/-- Every command but CLRERR leaves the set flags set (10_state.md R29). -/
theorem effectOf_keepsFlags (i : Instr) (s : State) (hi : i ≠ .clrerr) : KeepsFlags s (effectOf i s) := by
  obtain ⟨hillegal, hstate, haccess, hrest⟩ := effectOf_flags i s
  refine ⟨by simp [hillegal, hi], by simp [hstate, hi], by simp [haccess, hi], fun h => ?_⟩
  by_cases hf : ∃ nb, i = .feed nb
  · obtain ⟨nb, rfl⟩ := hf
    simp [effectOf, absorb_eq, h]
  · obtain ⟨hlen, -, -⟩ := hrest hi (not_exists.mp hf)
    rw [hlen, h]

/-- Kept flags rule out the fall of any of the four (10_state.md R29). -/
theorem KeepsFlags.not_cleared {s t : State} (h : KeepsFlags s t) :
    ¬ (s.eIllegal = true ∧ t.eIllegal = false ∨ s.eState = true ∧ t.eState = false ∨
      s.eAccess = true ∧ t.eAccess = false ∨ s.lenOvf = true ∧ t.lenOvf = false) := by
  rintro (⟨h1, h0⟩ | ⟨h1, h0⟩ | ⟨h1, h0⟩ | ⟨h1, h0⟩)
  · simp [h.eIllegal h1] at h0
  · simp [h.eState h1] at h0
  · simp [h.eAccess h1] at h0
  · simp [h.lenOvf h1] at h0

/-- Settles O26: an error only adds flags, and of the commands only CLRERR clears them. -/
theorem stickyFlagsClearedOnlyByClrerrOrReset : Obligations.StickyFlagsClearedOnlyByClrerrOrReset := by
  intro s t h hcleared
  rcases step_outcome h with hreset | ⟨i, rest, hcmd, -, -, rfl⟩ | hkeep
  · exact .inr hreset
  · by_cases hi : i = .clrerr
    · subst hi
      exact .inl ⟨rest, hcmd⟩
    · exact absurd hcleared (effectOf_keepsFlags i { s with port := rest, out := .ackWrite } hi).not_cleared
  · exact absurd hcleared hkeep.not_cleared

/-- Settles O27: of the commands only INIT writes ALG, and its word holds the new code. -/
theorem onlyInitWritesAlg : Obligations.OnlyInitWritesAlg := by
  intro s t h hne
  rcases step_outcome h with hreset | ⟨i, rest, hcmd, hw, -, rfl⟩ | hkeep
  · exact .inr hreset
  · rcases effectOf_alg i { s with port := rest, out := .ackWrite } hw with hsame | hinit
    · exact absurd hsame hne
    · exact .inl ⟨rest, hinit ▸ hcmd⟩
  · exact absurd hkeep.alg hne

/-- FEED, FINALIZE and FINALIZE_RESET run in ABSORB only (47_commands.md R248). -/
theorem absorb_of_allowed {i : Instr} {p : Phase} (hi : (∃ nb, i = .feed nb) ∨ i = .finalize ∨ i = .finalizeReset)
    (h : allowed i p = true) : p = .absorb := by
  cases p with
  | absorb => rfl
  | uninit | done | fault => rcases hi with ⟨nb, rfl⟩ | rfl | rfl <;> cases h

/-- Settles O29: of the commands the finalizes set DVALID, in ABSORB only, and INIT clears it. -/
theorem dvalidSetAndCleared : Obligations.DvalidSetAndCleared := by
  intro s t h
  rcases step_outcome h with ⟨o, rest, hp⟩ | ⟨i, rest, hcmd, -, ha, rfl⟩ | hkeep
  · rw [(StepCase.reset o rest hp).step_eq] at h
    cases h
    exact ⟨fun _ hset => (nomatch hset), fun _ _ => .inr ⟨o, rest, hp⟩⟩
  · rcases effectOf_dvalid i { s with port := rest, out := .ackWrite } with hsame | ⟨alg, rfl, hclear⟩ | ⟨hi, hset⟩
    · rw [hsame]
      simp +contextual
    · exact ⟨by simp [hclear], fun _ _ => .inl ⟨alg, rest, hcmd⟩⟩
    · refine ⟨fun _ _ => ⟨absorb_of_allowed (.inr hi) ha, ?_⟩, by simp [hset]⟩
      rcases hi with rfl | rfl
      · exact .inl ⟨rest, hcmd⟩
      · exact .inr ⟨rest, hcmd⟩
  · simp +contextual [hkeep.dvalid]

/-! ### STATUS -/

/-- The one-bit fields of STATUS are the flags they name, and bit 7 is reserved (10_state.md R35). -/
theorem statusWord_flags (s : State) :
    (statusWord s).getLsbD 3 = s.dvalid ∧ (statusWord s).getLsbD 7 = false ∧ (statusWord s).getLsbD 8 = s.eIllegal ∧
      (statusWord s).getLsbD 9 = s.eState ∧ (statusWord s).getLsbD 10 = s.eAccess ∧
      (statusWord s).getLsbD 11 = s.lenOvf := by
  simp only [statusWord, BitVec.getLsbD_append]
  simp

/-- The wider fields of STATUS are the elements they name, and its upper half is reserved (10_state.md R35). -/
theorem statusWord_codes (s : State) :
    (statusWord s).extractLsb' 0 3 = s.phase.code ∧ (statusWord s).extractLsb' 4 3 = s.alg.code ∧
      (statusWord s).extractLsb' 12 4 = s.ecode ∧ (statusWord s).extractLsb' 16 16 = 0 := by
  simp (disch := decide) only [statusWord, BitVec.extractLsb'_append_eq_of_add_le, BitVec.extractLsb'_append_eq_of_le]
  simp

/-- What a refused write records (60_exceptions.md R273). -/
theorem raiseError_access (info : Word) (s : State) : raiseError .access info s = { s with
    eAccess := true, ecode := if s.ecode = 0 then 3 else s.ecode, errinfo := if s.ecode = 0 then info else s.errinfo } := by
  simp [raiseError, ErrorCode.num]

/-- A write to an offset other than CMD and DATA is refused, whatever its strobes (20_memory.md R67). -/
theorem writeAccepted_eq_false {off : BitVec 8} (strb : BitVec 4) (hcmd : off ≠ 0x00#8) (hdata : off ≠ 0x04#8) :
    writeAccepted off strb = false := by
  simp [writeAccepted, hcmd, hdata]

/-- Settles O8: STATUS is the fields side by side, and its offset takes no write. -/
theorem statusFields : Obligations.StatusFields := by
  refine ⟨fun s => ?_, by decide, fun s v strb rest h => ?_⟩
  · obtain ⟨hdvalid, hreserved, hillegal, hstate, haccess, hlen⟩ := statusWord_flags s
    obtain ⟨hphase, halg, hecode, hupper⟩ := statusWord_codes s
    exact ⟨hphase, hdvalid, halg, hreserved, hillegal, hstate, haccess, hlen, hecode, hupper⟩
  · have hr : writeAccepted 0x08#8 strb = false := writeAccepted_eq_false strb (by decide) (by decide)
    rw [(StepCase.refused _ v strb rest h hr).step_eq, raiseError_access]
    rfl

/-! ### The invariants of every transaction boundary -/

/-- Settles O47: after reset every field the invariants speak of is zero or idle (70_reset_and_hazards.md R302). -/
theorem resetHasInvariants : Obligations.ResetHasInvariants where
  count_fits := by decide
  uninit_empty _ := ⟨rfl, rfl, rfl⟩
  invalid_zero _ := rfl
  beyond_out_zero h := nomatch h
  no_error_clear _ := ⟨rfl, rfl, rfl, rfl, rfl⟩
  code_produced := by decide
  pad_none := rfl
  consumer_idle := rfl

/-- The invariants say nothing of DATA and the port. -/
theorem State.Inv.ack {s : State} (h : s.Inv) (data : Word) (out : PortOut) (port : List HostEvent) :
    State.Inv { s with data := data, out := out, port := port } :=
  ⟨h.count_fits, h.uninit_empty, h.invalid_zero, h.beyond_out_zero, h.no_error_clear, h.code_produced, h.pad_none,
    h.consumer_idle⟩

/-- No error is coded 0, which says that none is recorded (60_exceptions.md R275). -/
theorem ErrorCode.num_ne_zero (c : ErrorCode) : c.num ≠ 0 := by cases c <;> decide

/-- The five errors take the codes 1..5 (60_exceptions.md R275). -/
theorem ErrorCode.num_le (c : ErrorCode) : c.num.toNat ≤ 5 := by cases c <;> decide

/-- Recording an error keeps the invariants: an error is recorded after it, so R43.6 asks nothing. -/
theorem State.Inv.raiseError {s : State} (h : s.Inv) (c : ErrorCode) (info : Word) : (raiseError c info s).Inv where
  count_fits := h.count_fits
  uninit_empty hp := h.uninit_empty (by
    rw [raiseError_phase] at hp
    split at hp
    · cases hp
    · exact hp)
  invalid_zero := h.invalid_zero
  beyond_out_zero := h.beyond_out_zero
  no_error_clear hz := by
    rw [raiseError_ecode] at hz
    split at hz
    · exact absurd hz c.num_ne_zero
    · contradiction
  code_produced := by
    rw [raiseError_ecode]
    split
    · exact c.num_le
    · exact h.code_produced
  pad_none := h.pad_none
  consumer_idle := h.consumer_idle

/-- CLRERR keeps the invariants: it leaves no error recorded and every flag clear (47_commands.md R245). -/
theorem State.Inv.clearErrors {s : State} (h : s.Inv) : (clearErrors s).Inv where
  count_fits := h.count_fits
  uninit_empty := h.uninit_empty
  invalid_zero := h.invalid_zero
  beyond_out_zero := h.beyond_out_zero
  no_error_clear _ := ⟨rfl, rfl, rfl, rfl, rfl⟩
  code_produced := by simp
  pad_none := h.pad_none
  consumer_idle := h.consumer_idle

/-- INIT keeps the invariants: it opens a message of no bytes and clears the digest (47_commands.md R241). -/
theorem State.Inv.initEffect {s : State} (h : s.Inv) (a : Alg) : (initEffect a s).Inv where
  count_fits := by simp
  uninit_empty hp := nomatch hp
  invalid_zero _ := rfl
  beyond_out_zero hv := nomatch hv
  no_error_clear := h.no_error_clear
  code_produced := h.code_produced
  pad_none := h.pad_none
  consumer_idle := h.consumer_idle

/-- COUNT may take any value that fits while a message is open. -/
theorem State.Inv.withCount {s : State} (h : s.Inv) (hp : s.phase = .absorb) {n : BitVec 128}
    (hn : n.toNat < 2 ^ s.alg.counterBits) : State.Inv { s with count := n } :=
  ⟨hn, fun hu => (nomatch hp.symm.trans hu), h.invalid_zero, h.beyond_out_zero, h.no_error_clear, h.code_produced,
    h.pad_none, h.consumer_idle⟩

/-- CounterAdd keeps the invariants: COUNT is reduced modulo 2^W, and the warning is an error recorded (40_counter.md R111). -/
theorem State.Inv.counterAdd {s : State} (h : s.Inv) (hp : s.phase = .absorb) (n : Nat) (cw : Word) :
    (counterAdd n cw s).Inv := by
  have hfit : (Machine.counterAdd n cw s).count.toNat < 2 ^ s.alg.counterBits := by
    rw [counterAdd_count]
    exact Nat.mod_lt _ (by positivity)
  unfold Machine.counterAdd at hfit ⊢
  split
  · exact (h.raiseError .lenOvf cw).withCount hp hfit
  · exact h.withCount hp hfit

/-- The bytes of an absorb go to BUF and H, of which the invariants say nothing, and leave the consumer idle. -/
theorem State.Inv.absorbBytes {s : State} (h : s.Inv) (d : List Byte) : (absorbBytes d s).Inv := by
  rw [(absorbBytes_eq d s).1]
  exact ⟨h.count_fits, h.uninit_empty, h.invalid_zero, h.beyond_out_zero, h.no_error_clear, h.code_produced, h.pad_none,
    ite_eq_right_iff.mpr fun _ => h.consumer_idle⟩

/-- Absorbing with a message open keeps the invariants (43_streaming_padder.md R160). -/
theorem State.Inv.absorb {s : State} (h : s.Inv) (hp : s.phase = .absorb) (d : List Byte) (cw : Word) :
    (absorb d cw s).Inv :=
  (h.absorbBytes d).counterAdd (by rw [(absorbBytes_eq d s).1]; exact hp) d.length cw

/-- A finalize keeps the invariants: the digest it latches is OUT bytes and then zeros (42_block_consumer.md R145). -/
theorem State.Inv.finalizeSequence {s : State} (h : s.Inv) (cw : Word) (reset : Bool) :
    (finalizeSequence cw reset s).Inv := by
  rw [finalizeSequence_eq]
  constructor
  case count_fits => cases reset <;> simp [h.count_fits]
  case uninit_empty => cases reset <;> simp
  case invalid_zero => simp
  case beyond_out_zero =>
    intro _ i hi
    have hbank : (bankOf (toBytes s.alg (finalAcc s)))[i.val] = 0 := by
      rw [getElem_bankOf _ _ i.isLt, List.getD_eq_default _ _ (by rwa [length_toBytes])]
    exact hbank
  case no_error_clear => exact h.no_error_clear
  case code_produced => exact h.code_produced
  case pad_none => rfl
  case consumer_idle => rfl

/-- Every command that runs keeps the invariants. -/
theorem State.Inv.effectOf {s : State} (h : s.Inv) (i : Instr) (ha : allowed i s.phase = true) : (effectOf i s).Inv := by
  cases i with
  | nop => exact h
  | init alg =>
    simp only [Machine.effectOf]
    cases algOperand alg with
    | none => exact h
    | some a => exact h.initEffect a
  | feed nb => exact h.absorb (absorb_of_allowed (.inl ⟨nb, rfl⟩) ha) _ _
  | finalize => exact h.finalizeSequence _ false
  | finalizeReset => exact h.finalizeSequence _ true
  | clrerr => exact h.clearErrors

/-- Settles O48: each outcome of the step keeps the invariants. -/
theorem stepKeepsInvariants : Obligations.StepKeepsInvariants := by
  intro s t h hstep
  cases step_cases s t hstep with
  | idle => exact h.ack s.data _ s.port
  | reset o rest => exact resetHasInvariants.ack 0 .noAck rest
  | read off rest => exact h.ack s.data _ rest
  | refused off v strb rest => exact (h.ack s.data _ rest).raiseError _ _
  | data v rest => exact h.ack v _ rest
  | illegal cw rest => exact (h.ack s.data _ rest).raiseError _ _
  | wrongPhase cw i rest => exact (h.ack s.data _ rest).raiseError _ _
  | command cw i rest hp hd ha => exact (h.ack s.data _ rest).effectOf i ha

/-! ### Storage without a defined value -/

/-- Two states that differ in BUF and H at most agree once the live words and the tail of an open message do. -/
theorem Agree.of_storage {s t : State} {x : Words} {b : Vector Byte 128} (hst : t = { s with acc := x, buf := b })
    (hacc : s.phase = .absorb → liveWords s.alg s.acc = liveWords s.alg x) (htail : s.phase = .absorb → tail s = tail t) :
    Agree s t := by
  subst hst
  exact ⟨rfl, rfl, rfl, rfl, rfl, rfl, rfl, rfl, rfl, rfl, rfl, rfl, rfl, rfl, rfl, rfl, hacc, htail⟩

/-- States that agree differ in BUF and H at most. -/
theorem Agree.exists_storage {s t : State} (h : Agree s t) : ∃ x b, t = { s with acc := x, buf := b } := by
  refine ⟨t.acc, t.buf, ?_⟩
  simp only [h.phase, h.alg, h.count, h.data, h.digest, h.dvalid, h.eIllegal, h.eState, h.eAccess, h.lenOvf, h.ecode,
    h.errinfo, h.pad, h.consumer, h.out, h.port]

/-- Agreement is kept when DATA and the port change alike. -/
theorem Agree.ack {s t : State} (h : Agree s t) (data : Word) (out : PortOut) (port : List HostEvent) :
    Agree { s with data := data, out := out, port := port } { t with data := data, out := out, port := port } := by
  obtain ⟨x, b, rfl⟩ := h.exists_storage
  exact .of_storage rfl h.live_acc h.live_tail

/-- No register shows BUF or H (20_memory.md R61). -/
theorem Agree.regRead {s t : State} (h : Agree s t) (off : BitVec 8) : regRead off s = regRead off t := by
  obtain ⟨x, b, rfl⟩ := h.exists_storage
  rfl

/-- Recording an error keeps agreement: it opens no message (60_exceptions.md R276). -/
theorem Agree.raiseError {s t : State} (h : Agree s t) (c : ErrorCode) (info : Word) :
    Agree (raiseError c info s) (raiseError c info t) := by
  have hphase : (Machine.raiseError c info s).phase = .absorb → s.phase = .absorb := by
    rw [raiseError_phase]
    split
    · nofun
    · exact id
  obtain ⟨x, b, rfl⟩ := h.exists_storage
  exact .of_storage rfl (fun hp => h.live_acc (hphase hp)) (fun hp => h.live_tail (hphase hp))

/-- CLRERR keeps agreement: it writes the error state only (47_commands.md R245). -/
theorem Agree.clearErrors {s t : State} (h : Agree s t) : Agree (clearErrors s) (clearErrors t) := by
  obtain ⟨x, b, rfl⟩ := h.exists_storage
  exact .of_storage rfl h.live_acc h.live_tail

/-- INIT makes agreement anew, whatever BUF and H held: it writes every live word and empties the tail (47_commands.md R241). -/
theorem Agree.initEffect {s t : State} (h : Agree s t) (a : Alg) : Agree (initEffect a s) (initEffect a t) := by
  obtain ⟨x, b, rfl⟩ := h.exists_storage
  refine .of_storage rfl (fun _ => ?_) (fun _ => ?_)
  · rw [initEffect_alg, initEffect_acc, live_putWords]
    exact (live_putWords a x (iv a)).symm
  · rw [tail_of_count_zero (initEffect_count a s), tail_of_count_zero rfl]

/-- Absorbing reads the live words and the tail only (43_streaming_padder.md R160). -/
theorem Agree.absorb {s t : State} (h : Agree s t) (hp : s.phase = .absorb) (d : List Byte) (cw : Word) :
    Agree (absorb d cw s) (absorb d cw t) := by
  have hacc := h.live_acc hp
  have htail := h.live_tail hp
  obtain ⟨x, b, rfl⟩ := h.exists_storage
  refine .of_storage (x := foldBlocks s.alg ((tail s ++ d).length / s.alg.blockBytes) x (tail s ++ d))
    (b := (absorbBytes d { s with acc := x, buf := b }).buf) ?_ (fun _ => ?_) (fun _ => ?_)
  · rw [absorb_eq, absorb_eq, ← htail]
    rfl
  · rw [absorb_eq]
    exact live_foldBlocks s.alg _ _ _ _ hacc
  · rw [tail_absorb, tail_absorb, htail]

/-- What a finalize folds depends on the live words and the tail only. -/
theorem Agree.live_finalAcc {s t : State} (h : Agree s t) (hp : s.phase = .absorb) :
    liveWords s.alg (finalAcc s) = liveWords s.alg (finalAcc t) := by
  have hacc := h.live_acc hp
  rw [← h.alg] at hacc
  simp only [finalAcc, ← h.alg, ← h.count, ← h.live_tail hp]
  exact live_foldBlocks s.alg _ _ _ _ hacc

/-- A finalize latches the same digest and leaves no tail open: FINALIZE closes the message, FINALIZE_RESET opens an empty one
(43_streaming_padder.md R163). -/
theorem Agree.finalizeSequence {s t : State} (h : Agree s t) (hp : s.phase = .absorb) (cw : Word) (reset : Bool) :
    Agree (finalizeSequence cw reset s) (finalizeSequence cw reset t) := by
  have hlive := h.live_finalAcc hp
  have hdigest : toBytes s.alg (finalAcc s) = toBytes t.alg (finalAcc t) := by
    rw [← h.alg, toBytes_congr s.alg _ _ hlive]
  obtain ⟨x, b, rfl⟩ := h.exists_storage
  rw [finalizeSequence_eq, finalizeSequence_eq, ← hdigest]
  cases reset with
  | false => exact .of_storage rfl nofun nofun
  | true =>
    refine .of_storage rfl (fun _ => ?_) (fun _ => ?_)
    · exact (live_putWords _ _ _).trans (live_putWords _ _ _).symm
    · rw [tail_of_count_zero rfl, tail_of_count_zero rfl]

/-- Every command that runs keeps agreement. -/
theorem Agree.effectOf {s t : State} (h : Agree s t) (i : Instr) (ha : allowed i s.phase = true) :
    Agree (effectOf i s) (effectOf i t) := by
  cases i with
  | nop => exact h
  | init alg =>
    simp only [Machine.effectOf]
    cases algOperand alg with
    | none => exact h
    | some a => exact h.initEffect a
  | feed nb =>
    have hlanes : lanes nb t = lanes nb s := by simp only [lanes, dataLanes, h.data]
    simp only [Machine.effectOf, hlanes]
    exact h.absorb (absorb_of_allowed (.inl ⟨nb, rfl⟩) ha) _ _
  | finalize => exact h.finalizeSequence (absorb_of_allowed (.inr (.inl rfl)) ha) _ _
  | finalizeReset => exact h.finalizeSequence (absorb_of_allowed (.inr (.inr rfl)) ha) _ _
  | clrerr => exact h.clearErrors

/-- A state that agrees takes the same case of the step, to a state that agrees. -/
theorem StepCase.of_agree {s t s' : State} (hc : StepCase s s') (h : Agree s t) : ∃ t', StepCase t t' ∧ Agree s' t' := by
  have hregs := h.regRead
  obtain ⟨x, b, rfl⟩ := h.exists_storage
  cases hc with
  | idle hp => exact ⟨_, .idle hp, .of_storage rfl h.live_acc h.live_tail⟩
  | reset o rest hp => exact ⟨_, .reset o rest hp, .of_storage rfl (fun _ => rfl) (fun _ => rfl)⟩
  | read off rest hp => exact ⟨_, .read off rest hp, hregs off ▸ h.ack s.data _ rest⟩
  | refused off v strb rest hp hr => exact ⟨_, .refused off v strb rest hp hr, (h.ack s.data _ rest).raiseError _ _⟩
  | data v rest hp => exact ⟨_, .data v rest hp, h.ack v _ rest⟩
  | illegal cw rest e hp hd => exact ⟨_, .illegal cw rest e hp hd, (h.ack s.data _ rest).raiseError _ _⟩
  | wrongPhase cw i rest hp hd ha => exact ⟨_, .wrongPhase cw i rest hp hd ha, (h.ack s.data _ rest).raiseError _ _⟩
  | command cw i rest hp hd ha => exact ⟨_, .command cw i rest hp hd ha, (h.ack s.data _ rest).effectOf i ha⟩

/-- Settles O49: states that agree take the same case of the step. -/
theorem deadStorageIsUnobservable : Obligations.DeadStorageIsUnobservable := by
  intro s t h
  obtain ⟨s', hs, hcs⟩ := step_total s
  obtain ⟨t', hct, hagree⟩ := hcs.of_agree h
  exact ⟨s', t', hs, hct.step_eq, hagree⟩

end Sys2Proof.Machine
end

section
/-! PROOFS. The host port (20_memory.md): what each offset reads (R64, R66), what a write stores and a command may change
(R67, R74), that every transaction completes (R75), and the platform's accesses of the window (R60, R68). -/

namespace Sys2Proof.Machine

/-! ### Big-endian words -/

/-- A byte appended at the low end of a word scales its value by 256. -/
theorem toNat_append_byte {w : Nat} (x : BitVec w) (b : Byte) : (x ++ b).toNat = x.toNat * 256 + b.toNat := by
  rw [BitVec.toNat_append, ← Nat.shiftLeft_add_eq_or_of_lt b.isLt, Nat.shiftLeft_eq]

/-- The big-endian word of four bytes is the bytes side by side, the first one most significant (00_scope.md R11). -/
theorem beWord_four_bytes (b0 b1 b2 b3 : Byte) : beWord 32 [b0, b1, b2, b3] = b0 ++ b1 ++ b2 ++ b3 := by
  have hvalue : (b0 ++ b1 ++ b2 ++ b3).toNat = beNat [b0, b1, b2, b3] := by
    simp only [toNat_append_byte, beNat, List.foldl_cons, List.foldl_nil, Nat.zero_mul, Nat.zero_add]
  rw [beWord, ← hvalue, BitVec.ofNat_toNat, BitVec.setWidth_eq]

/-- Four bytes out of a list, one by one. -/
theorem take_four_drop {l : List Byte} {k : Nat} (h : k + 3 < l.length) :
    (l.drop k).take 4 = [l[k], l[k + 1], l[k + 2], l[k + 3]] := by
  rw [List.drop_eq_getElem_cons (by omega), List.drop_eq_getElem_cons (by omega), List.drop_eq_getElem_cons (by omega),
    List.drop_eq_getElem_cons h]
  rfl

/-- DIGESTi is bytes 4i to 4i + 3 of D (10_state.md R38). -/
theorem digestWord_eq (s : State) (i : Fin 16) : digestWord s i.val =
    s.digest[4 * i.val] ++ s.digest[4 * i.val + 1] ++ s.digest[4 * i.val + 2] ++ s.digest[4 * i.val + 3] := by
  rw [digestWord, take_four_drop (by rw [Vector.length_toList]; omega), beWord_four_bytes]
  rfl

/-! ### The register map (20_memory.md R64, R66) -/

theorem regRead_misaligned {off : BitVec 8} (s : State) (h : off.toNat % 4 ≠ 0) : regRead off s = 0 := if_pos h

theorem regRead_cmd (s : State) : regRead 0x00 s = 0 := rfl

theorem regRead_data (s : State) : regRead 0x04 s = s.data := rfl

theorem regRead_status (s : State) : regRead 0x08 s = statusWord s := rfl

theorem regRead_errinfo (s : State) : regRead 0x0C s = s.errinfo := rfl

theorem regRead_count {off : BitVec 8} (s : State) (i : Fin 4) (h : off.toNat = 0x10 + 4 * i.val) :
    regRead off s = countWord s i.val := by
  have hindex : (0x10 + 4 * i.val - 0x10) / 4 = i.val := by omega
  simp (disch := omega) only [regRead, h, if_neg, if_pos, hindex]

theorem regRead_digest {off : BitVec 8} (s : State) (i : Fin 16) (h : off.toNat = 0x20 + 4 * i.val) :
    regRead off s = digestWord s i.val := by
  have hindex : (0x20 + 4 * i.val - 0x20) / 4 = i.val := by omega
  simp (disch := omega) only [regRead, h, if_neg, if_pos, hindex]

theorem regRead_unmapped {off : BitVec 8} (s : State) (h : 0x60 ≤ off.toNat) : regRead off s = 0 := by
  by_cases hal : off.toNat % 4 ≠ 0
  · exact regRead_misaligned s hal
  · simp (disch := omega) only [regRead, if_neg]

/-- Settles O7: a read answers `regRead`, which is the register map offset by offset. -/
theorem readReturnsRegister : Obligations.ReadReturnsRegister := by
  intro s off rest h
  refine ⟨regRead off s, (StepCase.read off rest h).step_eq, regRead_misaligned s, ?_, ?_, ?_, ?_, fun i => regRead_count s i,
    fun i hi => ?_, regRead_unmapped s⟩
  · rintro rfl
    exact regRead_cmd s
  · rintro rfl
    exact regRead_data s
  · rintro rfl
    exact regRead_status s
  · rintro rfl
    exact regRead_errinfo s
  · rw [regRead_digest s i hi, digestWord_eq]

/-! ### What a step writes -/

/-- Settles O9: no error, read or command writes DATA. -/
theorem dataRegisterWrites : Obligations.DataRegisterWrites := by
  refine ⟨fun s v rest h => (StepCase.data v rest h).step_eq, fun s t h hne => ?_⟩
  cases step_cases s t h with
  | reset o rest hp => exact .inr ⟨o, rest, hp⟩
  | data v rest hp => exact .inl ⟨v, rest, hp, rfl⟩
  | command cw i rest hp hd ha => exact absurd (effectOf_outside i _).1 hne
  | idle | read | refused | illegal | wrongPhase => exact absurd rfl hne

/-- Settles O28: a step that neither runs a command nor is a reset edge keeps the message and its digest. -/
theorem onlyCommandsChangeCountOrDigest : Obligations.OnlyCommandsChangeCountOrDigest := by
  intro s t h hne
  rcases step_outcome h with hreset | ⟨i, rest, hcmd, -, -, -⟩ | hkeep
  · exact .inr hreset
  · exact .inl ⟨encode i, rest, hcmd⟩
  · rcases hne with hcount | hdigest
    · exact absurd hkeep.count hcount
    · exact absurd hkeep.digest hdigest

/-- Settles O6: the step is total, and its idle case lowers ack. -/
theorem everyStepCompletes : Obligations.EveryStepCompletes := by
  refine ⟨fun s => ?_, fun s h => (StepCase.idle h).step_eq⟩
  obtain ⟨t, ht, -⟩ := step_total s
  exact ⟨t, ht⟩

/-! ### The platform's accesses -/

/-- A write with a partial strobe is refused at every offset and records ACCESS only (20_memory.md R67, 60_exceptions.md
R273). -/
theorem transact_partial_write {strb : BitVec 4} (hstrb : strb ≠ 0b1111#4) (off : BitVec 8) (v : Word) (s : State) :
    transact (.write off v strb) s = .next { s with
      out := .ackWrite, eAccess := true, ecode := if s.ecode = 0 then 3 else s.ecode,
      errinfo := if s.ecode = 0 then accessInfo off else s.errinfo } := by
  have hr : writeAccepted off strb = false := by simp [writeAccepted, hstrb]
  simp only [transact, regWrite, if_pos hr, raiseError_access]

/-- Without a port offset there is no transaction. -/
theorem no_access_of_portOffset {addr n : Nat} (v : Word) (h : portOffset addr n = none) :
    memRead addr n = none ∧ memWrite addr n v = none := by
  simp only [memRead, memWrite, h, Option.map_none, and_self]

theorem portOffset_outside {addr : Nat} (n : Nat) (h : addr < Config.engineBase ∨ Config.engineBase + 256 ≤ addr) :
    portOffset addr n = none := by
  rw [portOffset, windowOffset_outside addr h, Option.map_none, ite_self]

theorem portOffset_unserved (addr : Nat) {n : Nat} (h : n = 0 ∨ 4 < n) : portOffset addr n = none := if_pos h

/-- Settles O11: the port offset and the strobes of an access, by its width and by the window. -/
theorem windowMapsToPort : Obligations.WindowMapsToPort := by
  refine ⟨fun off v => ?_, fun off n h0 h4 => ?_, fun off n v h0 h4 => ?_,
    fun addr n v h => no_access_of_portOffset v (portOffset_outside n h),
    fun addr n v h => no_access_of_portOffset v (portOffset_unserved addr h)⟩
  · simp [memRead, memWrite, accessStrobes]
  · obtain ⟨p, hp, hword⟩ := portOffset_narrow _ n off h0 h4 (windowOffset_base off)
    exact ⟨p, hword, by rw [memRead, hp, Option.map_some], fun s => rfl⟩
  · obtain ⟨p, hp, hword⟩ := portOffset_narrow _ n off h0 h4 (windowOffset_base off)
    have hstrb := accessStrobes_partial (Config.engineBase + off.toNat) n (by omega)
    exact ⟨p, v, _, hword, hstrb, by rw [memWrite, hp, Option.map_some], transact_partial_write hstrb p v⟩

end Sys2Proof.Machine
end

section
/-! PROOFS. The command words (30_encoding.md R90 to R99, 60_exceptions.md R271) and the pseudo-instructions that feed and hash
a byte string (30_encoding.md R104). -/

namespace Sys2Proof.Machine

/-! ### Decoding inverts encoding -/

/-- A word decodes to the well-formed command it encodes, and to nothing else (30_encoding.md R99). -/
theorem decode_eq_ok_iff (cw : Word) (i : Instr) : decode cw = .ok i ↔ i.wellFormed = true ∧ encode i = cw := by
  constructor
  · exact fun h => ⟨decode_wellFormed cw i h, encode_decode cw i h⟩
  · rintro ⟨hw, rfl⟩
    exact decode_encode i hw

/-- Settles O1: the decoder accepts well-formed commands only, each by the one word that encodes it. -/
theorem decodeEncodeAgree : Obligations.DecodeEncodeAgree := decode_eq_ok_iff

/-! ### Legal words -/

/-- `Legal` of a command's word is the command's well-formedness (30_encoding.md R96). -/
theorem legal_encode (i : Instr) : legal (encode i) = i.wellFormed := by
  cases i with
  | nop => exact Laws.EncodeLegal.nop
  | init alg => exact Laws.EncodeLegal.init alg
  | feed nb => exact Laws.EncodeLegal.feed nb
  | finalize => exact Laws.EncodeLegal.finalize
  | finalizeReset => exact Laws.EncodeLegal.finalizeReset
  | clrerr => exact Laws.EncodeLegal.clrerr

/-- With ALG and NB both 0 a command without operands decodes (30_encoding.md R95). -/
theorem plainCommand_eq_ok {cw : Word} (i : Instr) (h : algField cw = 0 ∧ nbField cw = 0) :
    plainCommand cw i = .ok i := by
  rw [plainCommand, if_neg (not_not.mpr h.1), if_neg (not_not.mpr h.2)]

/-- `Legal` and the decoder check the same fields of the word: the reserved bits, OP, and the operands OP takes
(30_encoding.md R96). -/
theorem exists_decode_of_legal {cw : Word} (h : legal cw = true) : ∃ i, decode cw = .ok i := by
  unfold legal at h
  split at h
  · cases h
  rename_i hreserved
  rw [decode, if_neg hreserved]
  split at h
  case h_1 hop => exact ⟨.nop, by simpa only [hop] using plainCommand_eq_ok .nop (of_decide_eq_true h)⟩
  case h_2 hop => exact ⟨.finalize, by simpa only [hop] using plainCommand_eq_ok .finalize (of_decide_eq_true h)⟩
  case h_3 hop =>
    exact ⟨.finalizeReset, by simpa only [hop] using plainCommand_eq_ok .finalizeReset (of_decide_eq_true h)⟩
  case h_4 hop => exact ⟨.clrerr, by simpa only [hop] using plainCommand_eq_ok .clrerr (of_decide_eq_true h)⟩
  case h_5 hop =>
    obtain ⟨halg, hnb⟩ := of_decide_eq_true h
    exact ⟨.init (algField cw), by simp [hop, algFieldOk, halg, hnb]⟩
  case h_6 hop =>
    obtain ⟨halg, hnb⟩ := of_decide_eq_true h
    exact ⟨.feed (nbField cw), by simp [hop, nbFieldOk, halg, hnb]⟩
  case h_7 => cases h

theorem legal_iff_exists_decode (cw : Word) : legal cw = true ↔ ∃ i, decode cw = .ok i := by
  refine ⟨exists_decode_of_legal, ?_⟩
  rintro ⟨i, h⟩
  rw [← encode_decode cw i h, legal_encode, decode_wellFormed cw i h]

/-- Settles O3: a legal word is one that decodes to a command, and the decoder answers a command or an error. -/
theorem decodeRejectsExactlyIllegalWords : Obligations.DecodeRejectsExactlyIllegalWords := by
  intro cw
  rw [← Bool.not_eq_true, legal_iff_exists_decode]
  cases decode cw <;> simp

/-! ### The table of legal words (30_encoding.md R98) -/

/-- A well-formed command stands in the table with its word. -/
theorem encode_mem_legalWordTable (i : Instr) (h : i.wellFormed = true) : (encode i, i) ∈ legalWordTable := by
  cases i with
  | init alg =>
    revert alg
    decide
  | feed nb =>
    revert nb
    decide
  | nop | finalize | finalizeReset | clrerr => decide

/-- The table lists the pairs of a well-formed command and its word. -/
theorem mem_legalWordTable_iff (cw : Word) (i : Instr) : (cw, i) ∈ legalWordTable ↔ decode cw = .ok i := by
  rw [decode_eq_ok_iff]
  constructor
  · have hrows : ∀ p ∈ legalWordTable, p.2.wellFormed = true ∧ encode p.2 = p.1 := by decide
    exact hrows (cw, i)
  · rintro ⟨hw, rfl⟩
    exact encode_mem_legalWordTable i hw

/-- Settles O2: a legal word is one that decodes, and the table is the graph of the decoder. -/
theorem exactlySixteenWordsAreLegal : Obligations.ExactlySixteenWordsAreLegal := by
  refine ⟨rfl, by decide, fun cw => ?_, fun p => (mem_legalWordTable_iff p.1 p.2).mp⟩
  simp only [legal_iff_exists_decode, ← mem_legalWordTable_iff, List.mem_map, Prod.exists, exists_and_right,
    exists_eq_right]

/-- Settles O4: the words are closed, so the decoder is evaluated on each of them. -/
theorem opcodeTableWordsDecode : Obligations.OpcodeTableWordsDecode :=
  ⟨rfl, rfl, rfl, rfl, rfl, rfl, rfl, rfl, rfl, rfl, rfl⟩

/-! ### Ill-formed operands -/

/-- What an illegal command records (60_exceptions.md R271). -/
theorem raiseError_illegal (info : Word) (s : State) : raiseError .illegal info s = { s with
    eIllegal := true, ecode := if s.ecode = 0 then 1 else s.ecode, errinfo := if s.ecode = 0 then info else s.errinfo } := by
  simp [raiseError, ErrorCode.num]

/-- FEED's word as a number: OP 2, and NB from bit 8 up (30_encoding.md R91). -/
theorem encode_feed (nb : BitVec 3) : encode (.feed nb) = BitVec.ofNat 32 (0x2 + 0x100 * nb.toNat) := by
  revert nb
  decide

/-- Settles O18: the legality check comes before the phase and the effect, so an ill-formed term only records its word. -/
theorem illegalOperandsRaiseIllegal : Obligations.IllegalOperandsRaiseIllegal := by
  constructor
  · intro s
    rw [exec_illegal (.init 7) s rfl, raiseError_illegal]
    rfl
  · intro nb s hnb
    have hw : (Instr.feed nb).wellFormed = false := decide_eq_false (by omega)
    rw [exec_illegal _ s hw, raiseError_illegal, encode_feed]

/-! ### The pseudo-instructions -/

/-- Feeding m lanes of a word of four bytes feeds the first m of them (20_memory.md R70). -/
theorem bytes_laneWord (a b c d : Byte) (m : BitVec 3) :
    FeedItem.bytes ⟨laneWord a b c d, m⟩ = [a, b, c, d].take m.toNat := by
  simp (disch := decide) only [FeedItem.bytes, laneWord, BitVec.extractLsb'_append_eq_of_add_le,
    BitVec.extractLsb'_append_eq_of_le]
  simp

/-- Settles O52, along the recursion of feedb: one item for each four bytes, and a shorter last one. -/
theorem feedbFeedsItsBytes : Obligations.FeedbFeedsItsBytes := by
  intro bs
  induction bs using feedb.induct with
  | case1 => exact ⟨[], rfl, rfl, rfl, rfl⟩
  | case2 a => exact ⟨[⟨laneWord a 0 0 0, 1⟩], rfl, rfl, by simp [feedBytes, bytes_laneWord], by simp⟩
  | case3 a b => exact ⟨[⟨laneWord a b 0 0, 2⟩], rfl, rfl, by simp [feedBytes, bytes_laneWord], by simp⟩
  | case4 a b c => exact ⟨[⟨laneWord a b c 0, 3⟩], rfl, rfl, by simp [feedBytes, bytes_laneWord], by simp⟩
  | case5 a b c d rest ih =>
    obtain ⟨xs, hstatements, hok, hbytes, hlength⟩ := ih
    refine ⟨⟨laneWord a b c d, 4⟩ :: xs, ?_, ?_, ?_, ?_⟩
    · rw [feedb, hstatements]
      rfl
    · rw [List.all_cons, hok]
      rfl
    · rw [feedBytes, List.flatMap_cons, bytes_laneWord, ← feedBytes, hbytes]
      rfl
    · simp only [List.length_cons, hlength]
      omega

/-- INIT is refused in FAULT only (47_commands.md R248). -/
theorem allowed_init {p : Phase} (alg : BitVec 3) (h : p ≠ .fault) : allowed (.init alg) p = true := by
  cases p with
  | uninit | absorb | done => rfl
  | fault => exact absurd rfl h

/-- INIT outside FAULT, any FEEDs and one more command: the command runs on a state that holds the bytes fed
(43_streaming_padder.md R160). -/
theorem perform_init_feeds_command {s : State} (a : Alg) {xs : List FeedItem} (i : Instr) (hs : s.phase ≠ .fault)
    (hx : xs.all FeedItem.ok = true) (hw : i.wellFormed = true) (ha : allowed i .absorb = true) :
    ∃ u : State, perform (.command (.init a.code) :: feedStatements xs ++ [.command i]) s = .next (effectOf i u) ∧
      Holds a (putWords a s.acc (iv a)) 0 (feedBytes xs) u := by
  have hinit := run_command (.init a.code) (hostEvents (feedStatements xs) ++ hostEvents [.command i])
    { s with port := hostEvents (.command (.init a.code) :: feedStatements xs ++ [.command i]) }
    (by simp [hostEvents]) (algFieldOk_code a) (allowed_init a.code hs)
  simp only [effectOf, algOperand_code, Option.elim_some] at hinit
  obtain ⟨t, hfeeds, hholds, hport, -⟩ := run_items xs (hostEvents [.command i]) rfl hx (Holds.of_init a
    { s with port := hostEvents (feedStatements xs) ++ hostEvents [.command i], out := .ackWrite })
  have hlast := run_command i [] t hport hw (by rw [hholds.phase, ha])
  refine ⟨{ t with port := [], out := .ackWrite }, ?_, hholds.congr rfl rfl rfl rfl rfl⟩
  rw [perform, List.length_append, List.length_cons, List.length_singleton, Nat.add_comm (feedStatements xs).length,
    Nat.add_assoc, run_append 1 _ _ _ hinit, run_append _ 1 _ _ hfeeds]
  exact hlast

/-- A finalize latches the digest of the message the state holds (43_streaming_padder.md R163). -/
theorem Holds.finalizeSequence_digest {a : Alg} {start : Words} {m : List Byte} {s : State} (h : Holds a start 0 m s)
    (hstart : liveWords a start = liveWords a (iv a)) (cw : Word) (reset : Bool) :
    (finalizeSequence cw reset s).digest = bankOf (messageDigest a m) := by
  rw [finalizeSequence_eq, h.finalAcc, h.alg, toBytes_digestWords a start m hstart]

/-- Settles O53: feedb is FEEDs of the message's bytes, so FINALIZE runs on a state that holds the message. -/
theorem hashPseudoInstruction : Obligations.HashPseudoInstruction := by
  intro s a m hs
  obtain ⟨xs, hstatements, hok, hbytes, -⟩ := feedbFeedsItsBytes m
  obtain ⟨u, hrun, hholds⟩ := perform_init_feeds_command a .finalize hs hok rfl rfl
  rw [hbytes] at hholds
  refine ⟨effectOf .finalize u, by rw [Machine.hash, hstatements, hrun], ?_,
    hholds.finalizeSequence_digest (live_putWords a _ _) _ _⟩
  rw [effectOf, finalizeSequence_eq]
  rfl

end Sys2Proof.Machine
end

section
/-! PROOFS. The byte counter (40_counter.md): the buffer offset, the footer and the wrap, and O33 to O35. -/

namespace Sys2Proof.Machine

/-! ### The offset (40_counter.md R112) -/

/-- When B is a power of two, the offset is the low bits of COUNT. -/
theorem counterOffset_eq_lowBits {k : Nat} {s : State} (hB : s.alg.blockBytes = 2 ^ k) :
    counterOffset s = (s.count.extractLsb' 0 k).toNat := by
  rw [counterOffset, hB, BitVec.extractLsb'_toNat, Nat.shiftRight_zero]

/-- Settles O33: COUNT mod B is the definition, and B is 2^6 or 2^7. -/
theorem counterOffsetIsLowBits : Obligations.CounterOffsetIsLowBits := fun s =>
  ⟨rfl, counterOffset_lt s, fun hB => counterOffset_eq_lowBits (k := 6) hB, fun hB => counterOffset_eq_lowBits (k := 7) hB⟩

/-! ### The footer (40_counter.md R113) -/

@[simp] theorem length_counterFooter (s : State) : (counterFooter s).length = s.alg.footerBytes := length_beBytes _ _

/-- The footer's value: F bytes hold a number below 256^F = 2^(8F). -/
theorem beNat_counterFooter (s : State) :
    beNat (counterFooter s) = 8 * s.count.toNat % 2 ^ (8 * s.alg.footerBytes) := by
  have hpow : 256 ^ s.alg.footerBytes = 2 ^ (8 * s.alg.footerBytes) := (pow_mul 2 8 s.alg.footerBytes).symm
  rw [counterFooter, beNat_beBytes, hpow, Nat.mod_mod]

/-- Settles O34: the footer's length and its value. -/
theorem footerIsBitLength : Obligations.FooterIsBitLength := fun s =>
  ⟨length_counterFooter s, beNat_counterFooter s⟩

/-! ### The wrap (40_counter.md R114) -/

/-- Settles O35: B divides 2^W. -/
theorem wrapKeepsOffset : Obligations.WrapKeepsOffset := fun a count n =>
  Nat.mod_mod_of_dvd (count + n) (blockBytes_dvd a)

end Sys2Proof.Machine
end

section
/-! PROOFS. The Merkle–Damgård padder (41_padding.md) and the message it pads: O51, O36, O37, O32 and O38. -/

namespace Sys2Proof.Machine

/-! ### COUNT's width (10_state.md R43) -/

/-- R43.1 alone: COUNT is below 2^W(ALG). INIT establishes it in any state, also where the other invariants of R43 fail. -/
def CountFits (s : State) : Prop := s.count.toNat < 2 ^ s.alg.counterBits

/-- COUNT is reset by INIT and FINALIZE_RESET, reduced by FEED, and no other command writes it. -/
theorem CountFits.effectOf {s : State} (h : CountFits s) (i : Instr) : CountFits (effectOf i s) := by
  cases i with
  | nop | clrerr => exact h
  | init alg =>
    simp only [Machine.effectOf]
    cases algOperand alg with
    | none => exact h
    | some a => simp [CountFits]
  | feed nb =>
    rw [CountFits, Machine.effectOf, absorb, counterAdd_count, counterAdd_alg]
    exact Nat.mod_lt _ (by positivity)
  | finalize =>
    rw [Machine.effectOf, finalizeSequence_eq]
    exact h
  | finalizeReset =>
    rw [Machine.effectOf, finalizeSequence_eq]
    simp [CountFits]

/-- Every step keeps COUNT below 2^W, whatever else the state holds. -/
theorem CountFits.step {s t : State} (h : CountFits s) (hstep : step s = .next t) : CountFits t := by
  cases step_cases s t hstep with
  | idle | read | refused | data | illegal | wrongPhase => exact h
  | reset => exact resetHasInvariants.count_fits
  | command cw i rest => exact CountFits.effectOf (s := { s with port := rest, out := .ackWrite }) h i

/-- What every step keeps, a run keeps. -/
theorem run_keeps {P : State → Prop} (hP : ∀ {s t : State}, P s → step s = .next t → P t) (n : Nat) {s t : State}
    (h : P s) (hrun : Sys2Proof.core.run n s = .next t) : P t := by
  induction n generalizing s with
  | zero =>
    cases hrun
    exact h
  | succ n ih =>
    obtain ⟨u, hu, -⟩ := step_total s
    rw [Nat.add_comm, run_append 1 n s u (run_one s u hu)] at hrun
    exact ih (hP h hu) hrun

/-- INIT zeroes COUNT, so after it COUNT fits however the run goes on. -/
theorem countFits_of_perform_init {s t : State} (a : Alg) (ss : List Statement) (hs : s.phase ≠ .fault)
    (h : perform (.command (.init a.code) :: ss) s = .next t) : CountFits t := by
  have hinit := run_command (.init a.code) (hostEvents ss)
    { s with port := hostEvents (.command (.init a.code) :: ss) } rfl (algFieldOk_code a) (allowed_init a.code hs)
  rw [perform, List.length_cons, Nat.add_comm, run_append 1 _ _ _ hinit] at h
  refine run_keeps CountFits.step _ ?_ h
  simp [effectOf, CountFits]

/-! ### The digest of the whole message (41_padding.md R126, 43_streaming_padder.md R166) -/

/-- Where COUNT fits in W bits, it is the held message's length modulo 2^W itself. -/
theorem Holds.count_eq {a : Alg} {start : Words} {m : List Byte} {s : State} (h : Holds a start 0 m s) (hfits : CountFits s) :
    s.count.toNat = m.length % 2 ^ a.counterBits := by
  rw [CountFits, h.alg] at hfits
  rw [← Nat.mod_eq_of_lt hfits, h.count, Nat.zero_add]

/-- FINALIZE on the state: the digest of the padded tail is latched and the message closed (43_streaming_padder.md R163). -/
theorem effectOf_finalize (s : State) : effectOf .finalize s = { s with
    acc := finalAcc s, digest := bankOf (toBytes s.alg (finalAcc s)), dvalid := true, pad := .none, consumer := .idle,
    phase := .done } := by
  rw [effectOf, finalizeSequence_eq]
  rfl

/-- Settles O51: FINALIZE runs on a state that holds the bytes fed, so it folds the padded message, and it leaves COUNT, their
number modulo 2^W. -/
theorem streamingComputesMessageDigest : Obligations.StreamingComputesMessageDigest := by
  intro s a xs hs hx
  obtain ⟨u, hrun, hholds⟩ := perform_init_feeds_command a .finalize hs hx rfl rfl
  have hfits : CountFits (effectOf .finalize u) := countFits_of_perform_init a _ hs hrun
  have hdigest : (effectOf .finalize u).digest = bankOf (messageDigest a (feedBytes xs)) :=
    hholds.finalizeSequence_digest (live_putWords a _ _) _ _
  rw [effectOf_finalize] at hrun hfits hdigest
  exact ⟨_, hrun, rfl, hholds.alg, rfl, hdigest, hholds.count_eq hfits⟩

/-! ### PadNew (41_padding.md R121, R122) -/

/-- Before the footer, the single block is the tail, the terminator and the zero fill: the footer of `single_block` cancels. -/
theorem take_terminated {a : Alg} {tl : List Byte} (h : tl.length + 1 + a.footerBytes ≤ a.blockBytes) :
    (terminated a tl).take (a.blockBytes - a.footerBytes) =
      tl ++ [0x80#8] ++ zeros (a.blockBytes - a.footerBytes - 1 - tl.length) := by
  have hmod : tl.length % a.blockBytes = tl.length := Nat.mod_eq_of_lt (by omega)
  have hblock := single_block a tl.length tl hmod.symm h
  rw [padding, zeroFill_one a _ (by rwa [hmod]), hmod] at hblock
  apply List.append_cancel_right (bs := beBytes a.footerBytes (8 * tl.length % 2 ^ (8 * a.footerBytes)))
  simpa using hblock

/-- A tail that leaves room for the terminator and the footer makes one block (R122). -/
theorem padNew_of_fits {a : Alg} {tl : List Byte} (footer : List Byte) (h : tl.length + 1 + a.footerBytes ≤ a.blockBytes) :
    padNew a tl footer =
      some (.finalBlock (tl ++ [0x80#8] ++ zeros (a.blockBytes - a.footerBytes - 1 - tl.length) ++ footer)) := by
  rw [padNew, if_pos (by omega), if_pos h, take_terminated h]

/-- A tail that leaves no such room makes two (R122). -/
theorem padNew_of_not_fits {a : Alg} {tl : List Byte} (footer : List Byte) (hlt : tl.length < a.blockBytes)
    (h : a.blockBytes < tl.length + 1 + a.footerBytes) :
    padNew a tl footer = some (.penultimateBlock (terminated a tl) footer) := by
  rw [padNew, if_pos hlt, if_neg (by omega)]

/-- A tail of a block or more fails the invariant check (R121). -/
theorem padNew_of_oversize {a : Alg} {tl : List Byte} (footer : List Byte) (h : a.blockBytes ≤ tl.length) :
    padNew a tl footer = none := by
  rw [padNew, if_neg (by omega)]

/-- Settles O36: the two cases of R122's single-block condition. -/
theorem padNewConstruction : Obligations.PadNewConstruction := by
  intro a tl footer hlt _
  refine ⟨padNew_of_fits footer, fun h => ?_⟩
  rw [padNew_of_not_fits footer hlt h, terminated, List.append_assoc]
  rfl

/-! ### PadNext (41_padding.md R123 to R125) -/

/-- The thresholds 55 and 111 are the single-block condition for each block width (R125). -/
theorem le_threshold_iff (a : Alg) (n : Nat) :
    n ≤ (if a.blockBytes = 64 then 55 else 111) ↔ n + 1 + a.footerBytes ≤ a.blockBytes := by
  rcases blockBytes_cases a with ⟨-, hB, -, hF, -⟩ | ⟨-, hB, -, hF, -⟩
  · rw [hB, hF, if_pos rfl]
    omega
  · rw [hB, hF, if_neg (by decide)]
    omega

/-- Settles O37: FINAL is one call away from DONE and PENULTIMATE two, and each block written is a whole one. -/
theorem padderWritesOneOrTwoBlocks : Obligations.PadderWritesOneOrTwoBlocks := by
  intro a tl footer out hlt hfooter
  by_cases h : tl.length + 1 + a.footerBytes ≤ a.blockBytes
  · refine ⟨_, padNew_of_fits footer h, fun _ => ⟨rfl, rfl, ?_⟩,
      fun habove => absurd ((le_threshold_iff a tl.length).mpr h) (by omega)⟩
    simp only [padNext, List.length_append, List.length_singleton, length_zeros, hfooter]
    omega
  · exact ⟨_, padNew_of_not_fits footer hlt (by omega), fun hbelow => absurd ((le_threshold_iff a tl.length).mp hbelow) h,
      fun _ => ⟨rfl, length_terminated a tl hlt, fun _ => ⟨rfl, rfl, rfl⟩⟩⟩

/-- Settles O38: the DONE arm of R123. -/
theorem padNextInertInDone : Obligations.PadNextInertInDone := fun _ _ => rfl

/-! ### The invariant check (41_padding.md R121, 60_exceptions.md R280) -/

/-- FAULT is recorded in PHASE and has no sticky flag (60_exceptions.md R280). -/
theorem raiseError_fault (info : Word) (s : State) : raiseError .fault info s = { s with
    phase := .fault, ecode := if s.ecode = 0 then 5 else s.ecode, errinfo := if s.ecode = 0 then info else s.errinfo } := by
  simp [raiseError, ErrorCode.num]

/-- Settles O32: PadNew refuses an oversize tail, and a state's tail is COUNT mod B bytes. -/
theorem oversizeTailEntersFault : Obligations.OversizeTailEntersFault := by
  refine ⟨fun tl footer cw reset s h => ?_, fun s => ?_⟩
  · rw [finalizeFrom, padNew_of_oversize footer h]
    exact raiseError_fault cw s
  · rw [length_tail]
    exact counterOffset_lt s

end Sys2Proof.Machine
end

section
/-! PROOFS. The block consumer (42_block_consumer.md): Merge lane by lane (R143) and the words the DIGEST registers hold (R144,
R145): O45 and O46. -/

namespace Sys2Proof.Machine

/-! ### Merge (42_block_consumer.md R143) -/

/-- Settles O45: Merge is the lane-wise sum of the live words, read at one lane. -/
theorem mergeAddsLanes : Obligations.MergeAddsLanes := by
  intro a x y i hi
  have hlane : ∀ z : Words, i < (liveWords a z).length := fun z => by rwa [length_liveWords]
  rw [List.getD_eq_getElem _ _ (hlane (merge a x y)), List.getD_eq_getElem _ _ (hlane x), List.getD_eq_getElem _ _ (hlane y)]
  simp only [live_merge_eq, List.getElem_zipWith]

/-! ### Parts of big-endian words (00_scope.md R11) -/

/-- A big-endian string splits into the bytes of the value's high part and those of its low part. -/
theorem beBytes_add (m n x : Nat) : beBytes (m + n) x = beBytes m (x / 256 ^ n) ++ beBytes n x := by
  induction m with
  | zero => rw [Nat.zero_add]; rfl
  | succ m ih =>
    have hdiv : x / 256 ^ (m + n) = x / 256 ^ n / 256 ^ m := by rw [Nat.div_div_eq_div_mul, ← pow_add, Nat.add_comm n]
    rw [Nat.succ_add, beBytes, beBytes, ih, hdiv, List.cons_append]

/-- The m bytes after the first k of a big-endian string, r bytes before its end. -/
theorem take_drop_beBytes (k m r x : Nat) : ((beBytes (k + m + r) x).drop k).take m = beBytes m (x / 256 ^ r) := by
  rw [Nat.add_assoc, beBytes_add k, List.drop_left' (length_beBytes _ _), beBytes_add m,
    List.take_left' (length_beBytes _ _)]

/-- Dropping the bytes of i words drops the i words. -/
theorem drop_flatMap_beBytes (n i : Nat) (ws : List Nat) :
    (ws.flatMap (beBytes n)).drop (n * i) = (ws.drop i).flatMap (beBytes n) := by
  induction i generalizing ws with
  | zero => rfl
  | succ i ih =>
    cases ws with
    | nil => simp
    | cons w ws =>
      rw [Nat.mul_succ, Nat.add_comm, ← List.drop_drop, List.flatMap_cons, List.drop_left' (length_beBytes _ _), ih,
        List.drop_succ_cons]

/-- The m bytes after the first k of word i, out of a string of whole words. -/
theorem take_drop_flatMap_beBytes (k m r : Nat) {i : Nat} {ws : List Nat} (h : i < ws.length) :
    ((ws.flatMap (beBytes (k + m + r))).drop ((k + m + r) * i + k)).take m = beBytes m (ws.getD i 0 / 256 ^ r) := by
  rw [← List.drop_drop, drop_flatMap_beBytes, List.drop_eq_getElem_cons h, List.flatMap_cons,
    List.drop_append_of_le_length (by rw [length_beBytes]; omega),
    List.take_append_of_le_length (by rw [List.length_drop, length_beBytes]; omega), take_drop_beBytes,
    List.getD_eq_getElem _ _ h]

/-- Four big-endian bytes read back as a register. -/
theorem toNat_beWord_beBytes_four (x : Nat) : (beWord 32 (beBytes 4 x)).toNat = x % 2 ^ 32 := by
  rw [beWord, beNat_beBytes, BitVec.toNat_ofNat, show (256 : Nat) ^ 4 = 2 ^ 32 by decide, Nat.mod_mod]

/-! ### The DIGEST registers (42_block_consumer.md R144, R145; 10_state.md R38) -/

theorem four_dvd_outBytes (a : Alg) : 4 ∣ a.outBytes := by cases a <;> decide

theorem liveWords_getD_lt (a : Alg) (x : Words) (i : Nat) : (liveWords a x).getD i 0 < 2 ^ a.wordBits := by
  have hpos : 0 < 2 ^ a.wordBits := by positivity
  by_cases hi : i < (liveWords a x).length
  · rw [List.getD_eq_getElem _ _ hi]
    simp only [liveWords, List.getElem_map]
    exact Nat.mod_lt _ hpos
  · rwa [List.getD_eq_default _ _ (by omega)]

/-- The latched bank is the digest, then zeros. -/
theorem toList_latchDigest (s : State) :
    (latchDigest s).digest.toList = toBytes s.alg s.acc ++ zeros (64 - s.alg.outBytes) := by
  rw [latchDigest_digest, toList_bankOf, length_toBytes,
    List.take_of_length_le (by rw [length_toBytes]; exact outBytes_le _)]

/-- Beyond OUT a DIGEST register reads four of the bank's zeros. -/
theorem digestWord_latchDigest_beyond {s : State} {j : Nat} (hj : j < 16) (hout : s.alg.outBytes ≤ 4 * j) :
    digestWord (latchDigest s) j = 0 := by
  have hzeros : ((latchDigest s).digest.toList.drop (4 * j)).take 4 = zeros 4 := by
    rw [toList_latchDigest, List.drop_append, List.drop_of_length_le (by rwa [length_toBytes]), List.nil_append,
      length_toBytes, zeros, List.drop_replicate, List.take_replicate, zeros]
    congr 1
    omega
  rw [digestWord, hzeros]
  rfl

/-- Within OUT a DIGEST register reads the four bytes after the first k of word i of H, r bytes before the word's end. OUT is
a multiple of 4 for every algorithm, so the truncation of R144 cuts no register. -/
theorem digestWord_latchDigest_within {s : State} {i j k r : Nat} (hw : s.alg.wordBits / 8 = k + 4 + r)
    (hj : 4 * j = (k + 4 + r) * i + k) (hout : 4 * j < s.alg.outBytes) :
    (digestWord (latchDigest s) j).toNat = (liveWords s.alg s.acc).getD i 0 / 256 ^ r % 2 ^ 32 := by
  have hfit : 4 * j + 4 ≤ s.alg.outBytes := by
    obtain ⟨n, hn⟩ := four_dvd_outBytes s.alg
    omega
  have hi : i < (liveWords s.alg s.acc).length := by
    have hfull := outBytes_le_full s.alg
    rw [hw, Nat.mul_comm] at hfull
    rw [length_liveWords]
    exact Nat.lt_of_mul_lt_mul_left (a := k + 4 + r) (by omega)
  rw [digestWord, toList_latchDigest, List.drop_append_of_le_length (by rw [length_toBytes]; omega),
    List.take_append_of_le_length (by rw [List.length_drop, length_toBytes]; omega), toBytes_eq_live, List.drop_take,
    List.take_take, Nat.min_eq_left (by omega), hw, hj, take_drop_flatMap_beBytes k 4 r hi, toNat_beWord_beBytes_four]

/-- A DIGEST register after the latch: the four bytes of H at its place up to OUT bytes, 0 beyond. -/
theorem digestWord_latchDigest {s : State} {i j k r : Nat} (hw : s.alg.wordBits / 8 = k + 4 + r)
    (hj : 4 * j = (k + 4 + r) * i + k) (h16 : j < 16) :
    (digestWord (latchDigest s) j).toNat =
      if 4 * j < s.alg.outBytes then (liveWords s.alg s.acc).getD i 0 / 256 ^ r % 2 ^ 32 else 0 := by
  split
  case isTrue hout => exact digestWord_latchDigest_within hw hj hout
  case isFalse hout => rw [digestWord_latchDigest_beyond h16 (by omega)]; rfl

/-- Settles O46: a 32-bit word fills one register; a 64-bit word fills two, its high half four bytes before its end and its low
half at its end. -/
theorem digestRegistersHoldH : Obligations.DigestRegistersHoldH := by
  intro s i
  have hlt := liveWords_getD_lt s.alg s.acc i
  refine ⟨fun hw hi => ?_, fun hw hi => ⟨?_, ?_⟩⟩
  · rw [digestWord_latchDigest (i := i) (k := 0) (r := 0) (by rw [hw]) (by omega) hi, pow_zero, Nat.div_one,
      Nat.mod_eq_of_lt (hw ▸ hlt)]
  · have hhigh : (liveWords s.alg s.acc).getD i 0 / 2 ^ 32 < 2 ^ 32 := by
      rw [hw] at hlt
      omega
    rw [digestWord_latchDigest (i := i) (k := 0) (r := 4) (by rw [hw]) (by omega) (by omega),
      show (256 : Nat) ^ 4 = 2 ^ 32 by decide, Nat.mod_eq_of_lt hhigh, show 4 * (2 * i) = 8 * i by omega]
  · rw [digestWord_latchDigest (i := i) (k := 4) (r := 0) (by rw [hw]) (by omega) (by omega), pow_zero, Nat.div_one,
      show 4 * (2 * i + 1) = 8 * i + 4 by omega]

end Sys2Proof.Machine
end

section
/-! PROOFS. The streaming padder (43_streaming_padder.md): the state INIT and FINALIZE_RESET both open a message in (R167), the
FEEDs that extend it (R160, R165), and O50, O54 and O55. -/

namespace Sys2Proof.Machine

/-! ### Opening a message (43_streaming_padder.md R163, R167; 47_commands.md R241) -/

/-- A message of the algorithm is open and no byte of it is fed: what INIT leaves but for the digest, and FINALIZE_RESET too. -/
structure Opened (a : Alg) (s : State) : Prop where
  phase : s.phase = .absorb
  alg : s.alg = a
  acc : liveWords a s.acc = liveWords a (iv a)
  count : s.count = 0

/-- COUNT 0 puts every byte of BUF outside the tail. -/
theorem Opened.tail_eq_nil {a : Alg} {s : State} (h : Opened a s) : tail s = [] := tail_of_count_zero h.count

/-- An opened message holds no bytes, its H being the start of the fold. -/
theorem Opened.holds {a : Alg} {s : State} (h : Opened a s) : Holds a s.acc 0 [] s where
  phase := h.phase
  alg := h.alg
  origin := Nat.zero_mod _
  count := by simp [h.count]
  acc := by simp [foldBlocks]
  tail := h.tail_eq_nil.trans List.drop_nil.symm

theorem opened_initEffect (a : Alg) (s : State) : Opened a (initEffect a s) :=
  ⟨rfl, rfl, live_putWords a s.acc (iv a), rfl⟩

/-- A finalize with reset reloads the IV and zeroes COUNT of any state (43_streaming_padder.md R163). -/
theorem opened_finalizeSequence {a : Alg} {s : State} (ha : s.alg = a) (cw : Word) : Opened a (finalizeSequence cw true s) := by
  subst ha
  rw [finalizeSequence_eq]
  exact ⟨rfl, rfl, live_putWords s.alg (finalAcc s) (iv s.alg), rfl⟩

/-- Settles O54: either command leaves an opened message of the state's algorithm. -/
theorem finalizeResetReopensLikeInit : Obligations.FinalizeResetReopensLikeInit := by
  intro s hs
  have hreset : exec .finalizeReset s = .next (finalizeSequence (encode .finalizeReset) true s) :=
    exec_allowed .finalizeReset s rfl (by rw [hs]; rfl)
  have hinit : exec (.init s.alg.code) s = .next (initEffect s.alg s) := by
    rw [exec_allowed (.init s.alg.code) s (algFieldOk_code s.alg) (by rw [hs]; rfl), effectOf, algOperand_code, Option.elim_some]
  have ht := opened_finalizeSequence (s := s) rfl (encode .finalizeReset)
  have hu := opened_initEffect s.alg s
  exact ⟨_, _, hreset, hinit, ht.phase, ht.alg, ht.acc, ht.count, ht.tail_eq_nil, hu.phase.trans ht.phase.symm,
    hu.alg.trans ht.alg.symm, hu.acc.trans ht.acc.symm, hu.count.trans ht.count.symm,
    hu.tail_eq_nil.trans ht.tail_eq_nil.symm⟩

/-! ### FEEDs on a held message (43_streaming_padder.md R160, R165) -/

/-- Any FEEDs and one more command, with a message open: the command runs on a state that holds the bytes fed after it. -/
theorem Holds.perform_feeds_command {a : Alg} {start : Words} {c0 : Nat} {m : List Byte} {s : State} (h : Holds a start c0 m s)
    {xs : List FeedItem} (i : Instr) (hx : xs.all FeedItem.ok = true) (hw : i.wellFormed = true)
    (ha : allowed i .absorb = true) :
    ∃ u : State, perform (feedStatements xs ++ [.command i]) s = .next (effectOf i u) ∧
      Holds a start c0 (m ++ feedBytes xs) u := by
  obtain ⟨t, hfeeds, hholds, hport, -⟩ := run_items xs (hostEvents [.command i])
    (s := { s with port := hostEvents (feedStatements xs ++ [.command i]) }) (by simp [hostEvents]) hx
    (h.congr rfl rfl rfl rfl rfl)
  have hlast := run_command i [] t hport hw (by rw [hholds.phase, ha])
  refine ⟨{ t with port := [], out := .ackWrite }, ?_, hholds.congr rfl rfl rfl rfl rfl⟩
  rw [perform, List.length_append]
  exact (run_append _ 1 _ _ hfeeds).trans hlast

/-- Settles O50, by `run_items`, the induction over a sequence of FEEDs: what it says of the final state depends on the state at
the start and on the bytes fed, not on how they are cut. -/
theorem chunkInvariance : Obligations.ChunkInvariance := by
  intro s xs ys hs hxok hyok hx hy hbytes
  have hstart (ss : List Statement) := (Holds.of_absorb s hs).congr (t := { s with port := hostEvents ss }) rfl rfl rfl rfl rfl
  obtain ⟨t, htrun, ht, -, htdigest, htdvalid, htillegal, htstate, htaccess, htcount, htlen⟩ :=
    run_items xs [] (List.append_nil _).symm hxok (hstart (feedStatements xs))
  obtain ⟨u, hurun, hu, -, hudigest, hudvalid, huillegal, hustate, huaccess, hucount, hulen⟩ :=
    run_items ys [] (List.append_nil _).symm hyok (hstart (feedStatements ys))
  rw [← hbytes] at hu hucount hulen
  exact ⟨t, u, htrun, hurun, ht.phase,
    { phase := ht.phase.trans hu.phase.symm
      alg := ht.alg.trans hu.alg.symm
      count := BitVec.eq_of_toNat_eq ((htcount hx).trans (hucount hy).symm)
      acc := by rw [ht.alg, hu.alg, ht.acc, hu.acc]
      tail := ht.tail.trans hu.tail.symm
      digest := htdigest.trans hudigest.symm
      dvalid := htdvalid.trans hudvalid.symm
      eIllegal := htillegal.trans huillegal.symm
      eState := htstate.trans hustate.symm
      eAccess := htaccess.trans huaccess.symm
      lenOvf := (htlen hx).trans (hulen hy).symm }⟩

/-! ### Two messages in a row (43_streaming_padder.md R163, R167) -/

/-- Settles O55: the first FINALIZE_RESET opens a message as INIT does, so the second finalize latches the digest of the bytes fed
after it, too. -/
theorem resetEquivalence : Obligations.ResetEquivalence := by
  intro s a xs ys hs hxok hyok hbytes
  obtain ⟨v, hrun, hv⟩ := perform_init_feeds_command a .finalizeReset hs hxok rfl rfl
  have hopen : Opened a (effectOf .finalizeReset v) := opened_finalizeSequence hv.alg _
  have hfirst : (effectOf .finalizeReset v).digest = bankOf (messageDigest a (feedBytes xs)) :=
    hv.finalizeSequence_digest (live_putWords a _ _) _ _
  obtain ⟨w, hrun', hw⟩ := hopen.holds.perform_feeds_command .finalizeReset hyok rfl rfl
  rw [List.nil_append, ← hbytes] at hw
  have hsecond : (effectOf .finalizeReset w).digest = bankOf (messageDigest a (feedBytes xs)) :=
    hw.finalizeSequence_digest hopen.acc _ _
  have hreopen : Opened a (effectOf .finalizeReset w) := opened_finalizeSequence hw.alg _
  exact ⟨_, _, hrun, hrun', hfirst, hsecond.trans hfirst.symm, hreopen.phase⟩

end Sys2Proof.Machine
end

section
/-! PROOFS. SHA-1 (44_sha1.md): ROTL as the core library's rotation, the words of a schedule by index, the SHA-1 schedule and its
round inputs (R183, R184) and one round (R185): O39 and O42. -/

namespace Sys2Proof.Machine

/-! ### ROTL (00_scope.md R10) -/

theorem rotl_eq_rotateLeft {w n : Nat} (h : n < w) (x : BitVec w) : rotl n x = x.rotateLeft n := by
  rw [BitVec.rotateLeft, BitVec.rotateLeftAux, Nat.mod_eq_of_lt h, rotl, rotr, Nat.sub_sub_self h.le, BitVec.or_comm]

/-! ### The words of a schedule by index -/

theorem getD_take_of_lt {α : Type} (l : List α) (d : α) {i t : Nat} (h : i < t) : (l.take t).getD i d = l.getD i d := by
  simp [List.getD_eq_getElem?_getD, List.getElem?_take_of_lt h]

/-- The first 16 words of a schedule are the block's. -/
theorem getD_extendSchedule_block {w : Nat} (next : List (BitVec w) → BitVec w) (n : Nat) (block : List Byte) {t : Nat}
    (h : t < 16) :
    (extendSchedule next n (blockWords w block)).getD t 0 = beWord w ((block.drop (w / 8 * t)).take (w / 8)) := by
  have hfront : (extendSchedule next n (blockWords w block)).take 16 = blockWords w block := by
    simpa using take_extendSchedule next n (blockWords w block)
  rw [← getD_take_of_lt _ _ h, hfront]
  simp [blockWords, h, Nat.mul_comm]

/-- Each later word is computed from the words before it. -/
theorem getD_extendSchedule_next {w : Nat} (next : List (BitVec w) → BitVec w) (n : Nat) (block : List Byte) {t : Nat}
    (h0 : 16 ≤ t) (h : t < 16 + n) :
    (extendSchedule next n (blockWords w block)).getD t 0 = next ((extendSchedule next n (blockWords w block)).take t) := by
  rw [List.getD_eq_getElem _ _ (by simpa [length_extendSchedule] using h)]
  exact getElem_extendSchedule next n _ t (by simpa using h) (by simpa using h0)

/-! ### The SHA-1 schedule (44_sha1.md R183, R184) -/

/-- R183's recurrence, on the first t words of a longer list. -/
theorem sha1Next_take (ws : List (BitVec 32)) {t : Nat} (h0 : 16 ≤ t) (h : t ≤ ws.length) :
    sha1Next (ws.take t) =
      (ws.getD (t - 3) 0 ^^^ ws.getD (t - 8) 0 ^^^ ws.getD (t - 14) 0 ^^^ ws.getD (t - 16) 0).rotateLeft 1 := by
  have hback (k : Nat) (hk : 0 < k) : (ws.take t).getD (t - k) 0 = ws.getD (t - k) 0 := getD_take_of_lt _ _ (by omega)
  rw [sha1Next, List.length_take_of_le h, rotl_eq_rotateLeft (by decide), hback 3 (by decide), hback 8 (by decide),
    hback 14 (by decide), hback 16 (by decide)]

theorem sha1Sel_val {t : Nat} (h : t < 80) : (sha1Sel t).val = t / 20 :=
  Nat.mod_eq_of_lt (by omega)

theorem getElem?_sha1Schedule (block : List Byte) {t : Nat} (h : t < 80) :
    (sha1Schedule block)[t]? =
      some ⟨((sha1Words block).getD t 0).setWidth 64, (sha1K (sha1Sel t)).setWidth 64, some (sha1Sel t)⟩ := by
  simp [sha1Schedule, h]

/-- Settles O39: the schedule extends the block's words by `sha1Next`, and the round inputs are the words in their order. -/
theorem sha1ScheduleRecurrence : Obligations.Sha1ScheduleRecurrence := by
  intro block w
  refine ⟨length_sha1Words block, fun t ht => ?_, fun t h0 ht => ?_, fun t ht => ?_⟩
  · exact getD_extendSchedule_block sha1Next 64 block ht
  · calc w t = sha1Next ((sha1Words block).take t) := getD_extendSchedule_next sha1Next 64 block h0 ht
      _ = _ := sha1Next_take _ h0 (by rw [length_sha1Words]; exact ht.le)
  · exact ⟨sha1Sel t, sha1Sel_val ht, getElem?_sha1Schedule block ht⟩

/-! ### The SHA-1 round (44_sha1.md R182, R185) -/

/-- f_t written out: Ch, Parity, Maj and again Parity (R182, R184). -/
theorem sha1F_eq (sel : Fin 4) (x y z : BitVec 32) :
    sha1F sel x y z =
      if sel = 0 then (x &&& y) ^^^ (~~~x &&& z) else if sel = 2 then (x &&& y) ^^^ (x &&& z) ^^^ (y &&& z) else x ^^^ y ^^^ z :=
  match sel with
  | 0 | 1 | 2 | 3 => rfl

/-- Settles O42: the two new words are written back in their low halves, and the other three move one cell on. -/
theorem sha1RoundStep : Obligations.Sha1RoundStep := by
  intro s r sel hsel
  refine ⟨?_, rfl, ?_, rfl, rfl⟩
  · rw [sha1Step, low32_setWidth, hsel, Option.getD_some, sha1F_eq, rotl_eq_rotateLeft (by decide)]
  · rw [sha1Step, low32_setWidth, rotl_eq_rotateLeft (by decide)]

end Sys2Proof.Machine
end

section
/-! PROOFS. SHA-256 and SHA-224 (45_sha256.md): ROTR as the core library's rotation, the functions of R203, the SHA-256 schedule
and its round inputs (R204) and one round (R205): O40 and O43. -/

namespace Sys2Proof.Machine

/-! ### ROTR (00_scope.md R10) and a schedule's recent words -/

theorem rotr_eq_rotateRight {w n : Nat} (h : n < w) (x : BitVec w) : rotr n x = x.rotateRight n := by
  rw [BitVec.rotateRight, BitVec.rotateRightAux, Nat.mod_eq_of_lt h, rotr]

/-- The word k places from the end of a list's first t words. -/
theorem getD_length_sub_take {α : Type} (l : List α) (d : α) {k t : Nat} (hk : 0 < k) (h0 : 0 < t) (h : t ≤ l.length) :
    (l.take t).getD ((l.take t).length - k) d = l.getD (t - k) d := by
  rw [List.length_take_of_le h]
  exact getD_take_of_lt l d (by omega)

/-! ### The functions of R203 -/

theorem sha256BigSigma0_eq (x : BitVec 32) :
    sha256BigSigma0 x = x.rotateRight 2 ^^^ x.rotateRight 13 ^^^ x.rotateRight 22 := by
  simp [sha256BigSigma0, rotr_eq_rotateRight]

theorem sha256BigSigma1_eq (x : BitVec 32) :
    sha256BigSigma1 x = x.rotateRight 6 ^^^ x.rotateRight 11 ^^^ x.rotateRight 25 := by
  simp [sha256BigSigma1, rotr_eq_rotateRight]

theorem sha256SmallSigma0_eq (x : BitVec 32) :
    sha256SmallSigma0 x = x.rotateRight 7 ^^^ x.rotateRight 18 ^^^ x >>> 3 := by
  simp [sha256SmallSigma0, rotr_eq_rotateRight, shr]

theorem sha256SmallSigma1_eq (x : BitVec 32) :
    sha256SmallSigma1 x = x.rotateRight 17 ^^^ x.rotateRight 19 ^^^ x >>> 10 := by
  simp [sha256SmallSigma1, rotr_eq_rotateRight, shr]

/-! ### The SHA-256 schedule (R204) -/

/-- R204's recurrence, on the first t words of a longer list. -/
theorem sha256Next_take (ws : List (BitVec 32)) {t : Nat} (h0 : 0 < t) (h : t ≤ ws.length) :
    sha256Next (ws.take t) =
      sha256SmallSigma1 (ws.getD (t - 2) 0) + ws.getD (t - 7) 0 + sha256SmallSigma0 (ws.getD (t - 15) 0)
        + ws.getD (t - 16) 0 := by
  have hback (k : Nat) (hk : 0 < k) := getD_length_sub_take ws 0 hk h0 h
  rw [sha256Next, hback 2 (by decide), hback 7 (by decide), hback 15 (by decide), hback 16 (by decide)]

theorem getElem?_sha256Schedule (block : List Byte) {t : Nat} (h : t < 64) :
    (sha256Schedule block)[t]? =
      some ⟨((sha256Words block).getD t 0).setWidth 64, (sha256K.getD t 0).setWidth 64, none⟩ := by
  simp [sha256Schedule, h]

/-- Settles O40: the schedule extends the block's words by `sha256Next`, and the round inputs are the words paired with the
constants in their order. -/
theorem sha256ScheduleRecurrence : Obligations.Sha256ScheduleRecurrence := by
  intro block w sigma0 sigma1
  refine ⟨length_sha256Words block, fun t ht => ?_, fun t h0 ht => ?_, fun t ht => getElem?_sha256Schedule block ht⟩
  · exact getD_extendSchedule_block sha256Next 48 block ht
  · calc w t = sha256Next ((sha256Words block).take t) := getD_extendSchedule_next sha256Next 48 block h0 ht
      _ = sha256SmallSigma1 (w (t - 2)) + w (t - 7) + sha256SmallSigma0 (w (t - 15)) + w (t - 16) :=
        sha256Next_take _ (by omega) (by rw [length_sha256Words]; exact ht.le)
      _ = sigma1 (w (t - 2)) + w (t - 7) + sigma0 (w (t - 15)) + w (t - 16) := by
        rw [sha256SmallSigma1_eq, sha256SmallSigma0_eq]

/-! ### The SHA-256 round (R205) -/

/-- Settles O43: the two new words are written back in their low halves, and the other six move one cell on. -/
theorem sha256RoundStep : Obligations.Sha256RoundStep := by
  intro s r
  refine ⟨?_, rfl, rfl, rfl, ?_, rfl, rfl, rfl⟩
  · rw [sha256Step, low32_setWidth, sha256BigSigma0_eq, sha256BigSigma1_eq, ch, maj]
  · rw [sha256Step, low32_setWidth, sha256BigSigma1_eq, ch]

end Sys2Proof.Machine
end

section
/-! PROOFS. The SHA-512 family (46_sha512.md): the functions of R225 with the core library's rotations, the SHA-512 schedule and
its round inputs (R226) and one round (R227): O41 and O44. -/

namespace Sys2Proof.Machine

/-! ### The functions of R225 -/

theorem sha512BigSigma0_eq (x : BitVec 64) :
    sha512BigSigma0 x = x.rotateRight 28 ^^^ x.rotateRight 34 ^^^ x.rotateRight 39 := by
  simp [sha512BigSigma0, rotr_eq_rotateRight]

theorem sha512BigSigma1_eq (x : BitVec 64) :
    sha512BigSigma1 x = x.rotateRight 14 ^^^ x.rotateRight 18 ^^^ x.rotateRight 41 := by
  simp [sha512BigSigma1, rotr_eq_rotateRight]

theorem sha512SmallSigma0_eq (x : BitVec 64) :
    sha512SmallSigma0 x = x.rotateRight 1 ^^^ x.rotateRight 8 ^^^ x >>> 7 := by
  simp [sha512SmallSigma0, rotr_eq_rotateRight, shr]

theorem sha512SmallSigma1_eq (x : BitVec 64) :
    sha512SmallSigma1 x = x.rotateRight 19 ^^^ x.rotateRight 61 ^^^ x >>> 6 := by
  simp [sha512SmallSigma1, rotr_eq_rotateRight, shr]

/-! ### The SHA-512 schedule (R226) -/

/-- R226's recurrence, on the first t words of a longer list. -/
theorem sha512Next_take (ws : List (BitVec 64)) {t : Nat} (h0 : 0 < t) (h : t ≤ ws.length) :
    sha512Next (ws.take t) =
      sha512SmallSigma1 (ws.getD (t - 2) 0) + ws.getD (t - 7) 0 + sha512SmallSigma0 (ws.getD (t - 15) 0)
        + ws.getD (t - 16) 0 := by
  have hback (k : Nat) (hk : 0 < k) := getD_length_sub_take ws 0 hk h0 h
  rw [sha512Next, hback 2 (by decide), hback 7 (by decide), hback 15 (by decide), hback 16 (by decide)]

/-- A word is 64 bits wide already, so a round input holds W_t and K_t themselves. -/
theorem getElem?_sha512Schedule (block : List Byte) {t : Nat} (h : t < 80) :
    (sha512Schedule block)[t]? = some ⟨(sha512Words block).getD t 0, sha512K.getD t 0, none⟩ := by
  simp [sha512Schedule, h]

/-- Settles O41: the schedule extends the block's words by `sha512Next`, and the round inputs are the words paired with the
constants in their order. -/
theorem sha512ScheduleRecurrence : Obligations.Sha512ScheduleRecurrence := by
  intro block w sigma0 sigma1
  refine ⟨length_sha512Words block, fun t ht => ?_, fun t h0 ht => ?_, fun t ht => getElem?_sha512Schedule block ht⟩
  · exact getD_extendSchedule_block sha512Next 64 block ht
  · calc w t = sha512Next ((sha512Words block).take t) := getD_extendSchedule_next sha512Next 64 block h0 ht
      _ = sha512SmallSigma1 (w (t - 2)) + w (t - 7) + sha512SmallSigma0 (w (t - 15)) + w (t - 16) :=
        sha512Next_take _ (by omega) (by rw [length_sha512Words]; exact ht.le)
      _ = sigma1 (w (t - 2)) + w (t - 7) + sigma0 (w (t - 15)) + w (t - 16) := by
        rw [sha512SmallSigma1_eq, sha512SmallSigma0_eq]

/-! ### The SHA-512 round (R227) -/

/-- Settles O44: T1 and T2 in the rotations of R225 make the two new words, and the other six move one cell on. -/
theorem sha512RoundStep : Obligations.Sha512RoundStep := by
  intro s r t1 t2
  rw [sha512Step, sha512BigSigma0_eq, sha512BigSigma1_eq, ch, maj]

end Sys2Proof.Machine
end

section
/-! PROOFS. The commands (47_commands.md): what a write of CMD runs (R240), the effects of INIT, FEED and the finalizes on the
state (R241 to R244), the commands without operands (R245, R246), and PHASE as what admits a command and what commands change
(R248, R249). -/

namespace Sys2Proof.Machine

/-! ### What a write of CMD runs (47_commands.md R240) -/

/-- A row of the opcode table is a word of 32 bits that decodes (30_encoding.md R90). -/
theorem decode_of_decodeTableWord {w : Nat} {i : Instr} (h : decodeTableWord 32 w = some i) :
    decode (BitVec.ofNat 32 (w % 2 ^ 32)) = .ok i := by
  rw [decodeTableWord, if_pos (Nat.mod_lt w (by decide))] at h
  cases hd : decode (BitVec.ofNat 32 (w % 2 ^ 32)) with
  | ok j =>
    rw [hd] at h
    exact congrArg Except.ok (Option.some.inj h)
  | error e =>
    rw [hd] at h
    cases h

/-- A CMD write of a command's word runs the command on the acknowledged write. -/
theorem step_of_decode {s : State} {cw : Word} {i : Instr} {rest : List HostEvent} (h : CmdWrite s cw rest)
    (hd : decode cw = .ok i) : step s = exec i { s with port := rest, out := .ackWrite } := by
  rw [step_of_cmdWrite h, command, hd]

/-- Settles O5: the host's CMD write reaches `Command`, which decodes; a fetched word is a CMD write at the front of the port. -/
theorem stepRunsDecodedCommand : Obligations.StepRunsDecodedCommand :=
  ⟨fun _ _ _ _ h hd => step_of_decode h hd,
    fun s _ _ hw => step_of_decode (s := s.withFetchWord 32 _) (rest := s.port) rfl (decode_of_decodeTableWord hw)⟩

theorem legal_eq_false_of_decode {cw : Word} (h : ∀ i, decode cw ≠ .ok i) : legal cw = false := by
  rw [← Bool.not_eq_true, legal_iff_exists_decode]
  exact not_exists.mpr h

/-- A CMD write of a word that is no command records ILLEGAL only (60_exceptions.md R271). -/
theorem step_illegal {s : State} {cw : Word} {rest : List HostEvent} (h : CmdWrite s cw rest) (hl : legal cw = false) :
    step s = .next (afterIllegal cw rest s) := by
  obtain ⟨e, hd⟩ := (decodeRejectsExactlyIllegalWords cw).mpr hl
  rw [(StepCase.illegal cw rest e h hd).step_eq, raiseError_illegal]
  rfl

/-! ### Commands without operands (47_commands.md R245, R246) -/

/-- The OP code of a command (30_encoding.md R92). -/
def opCode : Instr → BitVec 4
  | .nop => 0
  | .init _ => 1
  | .feed _ => 2
  | .finalize => 3
  | .finalizeReset => 4
  | .clrerr => 5

/-- A command's word holds its OP code in bits 3:0 (30_encoding.md R91). -/
theorem opField_encode (i : Instr) : opField (encode i) = opCode i := by
  cases i with
  | init alg =>
    revert alg
    decide
  | feed nb =>
    revert nb
    decide
  | nop | finalize | finalizeReset | clrerr => decide

/-- A word other than the one word of the only command with its OP is illegal (30_encoding.md R95, R96). -/
theorem legal_eq_false_of_opField {cw : Word} {i : Instr} (honly : ∀ j, opCode j = opCode i → j = i)
    (hop : opField cw = opCode i) (hne : cw ≠ encode i) : legal cw = false := by
  refine legal_eq_false_of_decode fun j hd => hne ?_
  have hj := encode_decode cw j hd
  have hji : j = i := honly j (by rw [← opField_encode j, hj, hop])
  rw [← hj, hji]

/-- NOP is the only command of OP 0. -/
theorem eq_nop_of_opCode (j : Instr) (h : opCode j = opCode .nop) : j = .nop := by
  cases j with
  | nop => rfl
  | init | feed | finalize | finalizeReset | clrerr => cases h

/-- CLRERR is the only command of OP 5. -/
theorem eq_clrerr_of_opCode (j : Instr) (h : opCode j = opCode .clrerr) : j = .clrerr := by
  cases j with
  | clrerr => rfl
  | nop | init | feed | finalize | finalizeReset => cases h

/-- Settles O12: NOP has no effect in any phase, and no other command has OP 0. -/
theorem nopHasNoEffect : Obligations.NopHasNoEffect :=
  ⟨fun _ => rfl, rfl, fun _ _ h => step_of_decode h rfl,
    fun _ _ _ h hop hne => step_illegal h (legal_eq_false_of_opField eq_nop_of_opCode hop hne)⟩

/-- Settles O13: CLRERR is admitted in every phase, and no other command has OP 5. -/
theorem clrerrClearsErrors : Obligations.ClrerrClearsErrors :=
  ⟨fun _ => rfl, rfl, fun _ _ _ h hop hne => step_illegal h (legal_eq_false_of_opField eq_clrerr_of_opCode hop hne)⟩

/-! ### INIT (47_commands.md R241) -/

/-- Settles O14: outside FAULT INIT runs its effect, and LoadIV leaves the live words of the IV. -/
theorem initOpensMessage : Obligations.InitOpensMessage := by
  intro a s hs
  refine ⟨?_, live_putWords a s.acc (iv a)⟩
  rw [exec_allowed (.init a.code) s (algFieldOk_code a) (allowed_init _ hs), effectOf, algOperand_code, Option.elim_some]
  rfl

/-! ### The finalizes (47_commands.md R243, R244) -/

/-- The blocks of the padded tail are the one or two a finalize folds (41_padding.md R125, R126). -/
theorem finalizedAcc_eq_finalAcc (s : State) : finalizedAcc s = finalAcc s := by
  have hlen : (tail s ++ padding s.alg s.count.toNat).length = padBlocks s.alg s.count.toNat * s.alg.blockBytes := by
    rw [List.length_append, length_tail, counterOffset, length_padding]
  rw [finalizedAcc, finalAcc, hlen, Nat.mul_div_cancel _ (blockBytes_pos s.alg)]

/-- Settles O16: in ABSORB FINALIZE runs its sequence, which folds the padded tail. -/
theorem finalizeLatchesDigest : Obligations.FinalizeLatchesDigest := by
  intro s hs
  rw [exec_allowed .finalize s rfl (by rw [hs]; rfl), effectOf_finalize, finalizedAcc_eq_finalAcc]

/-- Settles O17: FINALIZE_RESET runs the same sequence, and its end reloads the IV and zeroes COUNT. -/
theorem finalizeResetLatchesAndReopens : Obligations.FinalizeResetLatchesAndReopens := by
  intro s hs
  rw [exec_allowed .finalizeReset s rfl (by rw [hs]; rfl), effectOf, finalizeSequence_eq, finalizedAcc_eq_finalAcc]
  rfl

/-! ### FEED (47_commands.md R242, 43_streaming_padder.md R160, 40_counter.md R111) -/

/-- The error state is the same: the four sticky flags, ECODE and ERRINFO (10_state.md R29, R30). -/
structure SameErrors (s t : State) : Prop where
  eIllegal : t.eIllegal = s.eIllegal
  eState : t.eState = s.eState
  eAccess : t.eAccess = s.eAccess
  lenOvf : t.lenOvf = s.lenOvf
  ecode : t.ecode = s.ecode
  errinfo : t.errinfo = s.errinfo

theorem SameErrors.after {s t u : State} (h' : SameErrors t u) (h : SameErrors s t) : SameErrors s u where
  eIllegal := h'.eIllegal.trans h.eIllegal
  eState := h'.eState.trans h.eState
  eAccess := h'.eAccess.trans h.eAccess
  lenOvf := h'.lenOvf.trans h.lenOvf
  ecode := h'.ecode.trans h.ecode
  errinfo := h'.errinfo.trans h.errinfo

/-- Absorbing past the ceiling records LEN_OVF (40_counter.md R111). -/
theorem absorb_errors_of_passes {d : List Byte} {s : State} (cw : Word) (h : PassesCeiling d.length s) :
    SameErrors (raiseError .lenOvf cw s) (absorb d cw s) := by
  have hover : lengthOverflows d.length s = true := decide_eq_true h
  rw [absorb_eq]
  constructor <;> simp [hover, ErrorCode.num]

/-- Absorbing below the ceiling records no error (40_counter.md R111). -/
theorem absorb_errors_of_not_passes {d : List Byte} {s : State} (cw : Word) (h : ¬ PassesCeiling d.length s) :
    SameErrors s (absorb d cw s) := by
  have hover : lengthOverflows d.length s = false := decide_eq_false h
  rw [absorb_eq]
  constructor <;> simp [hover]

theorem absorb_count (d : List Byte) (cw : Word) (s : State) :
    (absorb d cw s).count.toNat = (s.count.toNat + d.length) % 2 ^ s.alg.counterBits := by
  rw [absorb, counterAdd_count, absorbBytes_count, absorbBytes_alg]

/-- Short of a block the bytes join the tail, and H waits (43_streaming_padder.md R160). -/
theorem absorb_short_effect {d : List Byte} {s : State} (cw : Word) (h : counterOffset s + d.length < s.alg.blockBytes) :
    tail (absorb d cw s) = tail s ++ d ∧ (absorb d cw s).acc = s.acc ∧ (absorb d cw s).consumer = s.consumer ∧
      ∀ i : Fin 128, (i.val < counterOffset s ∨ counterOffset s + d.length ≤ i.val) →
        (absorb d cw s).buf[i] = s.buf[i] := by
  have hlen : (tail s ++ d).length < s.alg.blockBytes := by simpa using h
  have hdiv : (tail s ++ d).length / s.alg.blockBytes = 0 := Nat.div_eq_of_lt hlen
  refine ⟨?_, ?_, ?_, fun i hi => ?_⟩
  · rw [tail_absorb, hdiv, Nat.zero_mul, List.drop_zero]
  · rw [absorb_eq, hdiv, foldBlocks]
  · rw [absorb_eq, if_pos hlen]
  · rw [absorb_eq, absorbBytes_buf_short d s h]
    exact getElem_writeBytes_outside d s.buf _ i.val i.isLt hi

/-- Bytes that fill one block have it compressed into H, and the rest is the tail (43_streaming_padder.md R160, R161). BUF is
written at the offset up to the block's end, and at the front. -/
theorem absorb_block_effect {d : List Byte} {s : State} (cw : Word) (h : s.alg.blockBytes ≤ counterOffset s + d.length)
    (h2 : counterOffset s + d.length < 2 * s.alg.blockBytes) :
    tail (absorb d cw s) = (tail s ++ d).drop s.alg.blockBytes ∧
      (absorb d cw s).acc = compress s.alg s.acc ((tail s ++ d).take s.alg.blockBytes) ∧
      (absorb d cw s).consumer = .idle ∧
      ∀ i : Fin 128, (counterOffset s + d.length ≤ i.val + s.alg.blockBytes ∧ i.val < counterOffset s ∨
        s.alg.blockBytes ≤ i.val) → (absorb d cw s).buf[i] = s.buf[i] := by
  have hoff := counterOffset_lt s
  have hlen : (tail s ++ d).length = counterOffset s + d.length := by simp
  have hdiv : (tail s ++ d).length / s.alg.blockBytes = 1 := by
    rw [hlen]
    exact Nat.div_eq_of_lt_le (by omega) (by omega)
  refine ⟨?_, ?_, ?_, fun i hi => ?_⟩
  · rw [tail_absorb, hdiv, Nat.one_mul]
  · rw [absorb_eq, hdiv, foldBlocks_one]
  · rw [absorb_eq]
    exact if_neg (by omega)
  · rw [absorb_eq, absorbBytes_buf_block d s h h2]
    have hfront := getElem_writeBytes_outside (d.drop (s.alg.blockBytes - counterOffset s))
      (writeBytes s.buf (counterOffset s) (d.take (s.alg.blockBytes - counterOffset s))) 0 i.val i.isLt
      (by rw [List.length_drop]; omega)
    have hback := getElem_writeBytes_outside (d.take (s.alg.blockBytes - counterOffset s)) s.buf (counterOffset s) i.val
      i.isLt (by rw [List.length_take]; omega)
    exact hfront.trans hback

/-- FEED in ABSORB absorbs its lanes of DATA (20_memory.md R70). -/
theorem exec_feed {nb : BitVec 3} {s : State} (hs : s.phase = .absorb) (hnb : nb.toNat ≤ 4) :
    exec (.feed nb) s = .next (absorb (lanes nb s) (encode (.feed nb)) s) :=
  exec_allowed (.feed nb) s (decide_eq_true hnb) (by rw [hs]; rfl)

/-- Settles O15: four lanes are fewer than a block, so FEED fills none or one; the frame is `absorb_eq`. -/
theorem feedAbsorbsLanes : Obligations.FeedAbsorbsLanes := by
  intro nb s hs hnb
  have hlanes : (lanes nb s).length = nb.toNat := length_lanes nb s hnb
  have hoff := counterOffset_lt s
  have hblock := four_lt_blockBytes s.alg
  refine ⟨_, exec_feed hs hnb, ⟨fun h => ?_, fun h => ?_⟩, ?_, fun h => ?_, fun h => ?_, ?_⟩
  · have heffect := absorb_short_effect (encode (.feed nb)) (hlanes.symm ▸ h)
    rwa [hlanes] at heffect
  · have heffect := absorb_block_effect (encode (.feed nb)) (hlanes.symm ▸ h) (by omega)
    rwa [hlanes] at heffect
  · rw [absorb_count, hlanes]
  · have herr := absorb_errors_of_passes (encode (.feed nb)) (hlanes.symm ▸ h)
    exact ⟨herr.lenOvf.trans (by simp), herr.ecode, herr.errinfo⟩
  · have herr := absorb_errors_of_not_passes (encode (.feed nb)) (hlanes.symm ▸ h)
    exact ⟨herr.lenOvf, herr.ecode, herr.errinfo⟩
  · rw [absorb_eq]

/-! ### PHASE (47_commands.md R248, R249) -/

/-- The entries of R248's matrix that say STATE are those the machine does not admit. -/
theorem phaseRefuses_iff (i : Instr) (p : Phase) : PhaseRefuses i p ↔ allowed i p = false := by
  cases i with
  | nop | clrerr => simp [PhaseRefuses, allowed]
  | init | feed | finalize | finalizeReset => cases p <;> simp [PhaseRefuses, allowed]

/-- What a command out of phase records (60_exceptions.md R272). -/
theorem raiseError_state (info : Word) (s : State) : raiseError .state info s = { s with
    eState := true, ecode := if s.ecode = 0 then 2 else s.ecode, errinfo := if s.ecode = 0 then info else s.errinfo } := by
  simp [raiseError, ErrorCode.num]

/-- Settles O19: a refused command only records STATE; an admitted one runs its effect, and of the effects only CLRERR's
touches E_STATE. -/
theorem phaseMatrix : Obligations.PhaseMatrix := by
  refine ⟨fun i s hw hr => ?_, fun i s hw hr hi => ?_⟩
  · rw [exec_wrongPhase i s hw ((phaseRefuses_iff i s.phase).mp hr), raiseError_state]
  · have ha : allowed i s.phase = true := by simpa [phaseRefuses_iff] using hr
    obtain ⟨-, hstate, -, -⟩ := effectOf_flags i s
    exact ⟨_, exec_allowed i s hw ha, by simp [hstate, hi]⟩

/-- A command that runs keeps PHASE, or it is INIT and opens a message, or FINALIZE and closes one. -/
theorem effectOf_phase {i : Instr} {s : State} (ha : allowed i s.phase = true) :
    (effectOf i s).phase = s.phase ∨
    (∃ alg, i = .init alg ∧ s.phase ≠ .fault ∧ (effectOf i s).phase = .absorb) ∨
    (i = .finalize ∧ s.phase = .absorb ∧ (effectOf i s).phase = .done) := by
  cases i with
  | nop | clrerr => exact .inl rfl
  | init alg =>
    cases hop : algOperand alg with
    | none => exact .inl (by simp [effectOf, hop])
    | some a =>
      refine .inr (.inl ⟨alg, rfl, fun hf => ?_, by simp [effectOf, hop]⟩)
      rw [hf] at ha
      cases ha
  | feed nb => exact .inl (by rw [effectOf, absorb_eq])
  | finalize => exact .inr (.inr ⟨rfl, absorb_of_allowed (.inr (.inl rfl)) ha, by rw [effectOf_finalize]⟩)
  | finalizeReset =>
    refine .inl ?_
    rw [absorb_of_allowed (.inr (.inr rfl)) ha, effectOf, finalizeSequence_eq]
    rfl

/-- Settles O30: a step that runs no command keeps PHASE or is a reset edge, and the commands change it as R249 lists. -/
theorem phaseTransitions : Obligations.PhaseTransitions := by
  intro s t h
  rcases step_outcome h with ⟨o, rest, hp⟩ | ⟨i, rest, hcmd, -, ha, rfl⟩ | hkeep
  · rw [(StepCase.reset o rest hp).step_eq] at h
    cases h
    exact .inr (.inl ⟨o, rest, hp, rfl⟩)
  · rcases effectOf_phase (s := { s with port := rest, out := .ackWrite }) ha with
      hsame | ⟨alg, rfl, hs, ht⟩ | ⟨rfl, hs, ht⟩
    · exact .inl hsame
    · exact .inr (.inr (.inl ⟨alg, rest, hcmd, hs, ht⟩))
    · exact .inr (.inr (.inr ⟨rest, hcmd, hs, ht⟩))
  · exact .inl hkeep.phase

end Sys2Proof.Machine
end

section
/-! PROOFS. The errors (60_exceptions.md): the causes R271 to R274 list, what every step does to the error state (R276, R277,
R281), and FAULT (R280). -/

namespace Sys2Proof.Machine

/-! ### The causes of ILLEGAL (60_exceptions.md R271) -/

/-- No command's word has a cause of ILLEGAL. -/
theorem not_illegalCause_encode {i : Instr} (hw : i.wellFormed = true) : ¬ IllegalCause (encode i) := by
  unfold IllegalCause
  cases i with
  | init alg =>
    revert alg
    decide
  | feed nb =>
    revert nb
    decide
  | nop | finalize | finalizeReset | clrerr => decide

/-- A word without a cause has an OP below 6, no reserved bit, and only the operand its OP takes (30_encoding.md R96). -/
theorem legal_of_not_illegalCause {cw : Word} (h : ¬ IllegalCause cw) : legal cw = true := by
  simp only [IllegalCause, not_or, not_and, not_not] at h
  obtain ⟨hop, ⟨hres, hrsv⟩, halg7, hstrayAlg, hnb5, hstrayNb⟩ := h
  have hreserved : ¬ (rsvField cw ≠ 0 ∨ resBit cw ≠ 0) := not_or.mpr ⟨not_not.mpr hrsv, not_not.mpr hres⟩
  have halg : (opField cw).toNat ≠ 1 → algField cw = 0 := fun hne =>
    by_contra fun h0 => hne (congrArg BitVec.toNat (hstrayAlg h0))
  have hnb : (opField cw).toNat ≠ 2 → nbField cw = 0 := fun hne =>
    by_contra fun h0 => hne (congrArg BitVec.toNat (hstrayNb h0))
  rw [legal, if_neg hreserved]
  split
  case h_1 hcode | h_2 hcode | h_3 hcode | h_4 hcode => exact decide_eq_true ⟨halg (by omega), hnb (by omega)⟩
  case h_5 hcode =>
    have hne : algField cw ≠ 7 := halg7 (BitVec.eq_of_toNat_eq hcode)
    exact decide_eq_true ⟨by bv_omega, hnb (by omega)⟩
  case h_6 hcode =>
    have hlt : ¬ 5 ≤ (nbField cw).toNat := hnb5 (BitVec.eq_of_toNat_eq hcode)
    exact decide_eq_true ⟨halg (by omega), by omega⟩
  case h_7 h0 h3 h4 h5 h1 h2 =>
    have hlt : ¬ 6 ≤ (opField cw).toNat := hop
    simp only [imp_false] at h0 h1 h2 h3 h4 h5
    omega

/-- The causes R271 lists are the ways `Legal` is false. -/
theorem illegalCause_iff (cw : Word) : IllegalCause cw ↔ legal cw = false := by
  refine ⟨fun hcause => legal_eq_false_of_decode fun i hd => ?_, fun hl => by_contra fun hno => ?_⟩
  · obtain ⟨hw, rfl⟩ := (decode_eq_ok_iff cw i).mp hd
    exact not_illegalCause_encode hw hcause
  · rw [legal_of_not_illegalCause hno] at hl
    cases hl

/-! ### The causes of ACCESS (60_exceptions.md R273) -/

/-- RegWrite accepts what R273 does not list: a word write at the aligned offsets below 0x08, which are CMD and DATA. -/
theorem writeAccepted_eq_false_iff (off : BitVec 8) (strb : BitVec 4) :
    writeAccepted off strb = false ↔ off.toNat % 4 ≠ 0 ∨ strb ≠ 0b1111#4 ∨ 0x08 ≤ off.toNat := by
  have hoff : (off = 0x00#8 ∨ off = 0x04#8) ↔ off.toNat % 4 = 0 ∧ off.toNat < 0x08 := by bv_omega
  rw [← Bool.not_eq_true, writeAccepted_iff, hoff, not_and_or, not_and_or, not_lt]
  exact or_left_comm

/-- ERRINFO's marker bit lies above the offset, so `0x100 | off` is their sum. -/
theorem accessInfo_eq (off : BitVec 8) : accessInfo off = BitVec.ofNat 32 (0x100 + off.toNat) := by
  have hor : 0x100 + off.toNat = 0x100 ||| off.toNat := Nat.two_pow_add_eq_or_of_lt (i := 8) off.isLt 1
  rw [hor, BitVec.ofNat_or, BitVec.ofNat_toNat]
  rfl

/-! ### What a step does to the error state (60_exceptions.md R276, R277, R281) -/

/-- The cause of each error at the host port, as R271 to R274 list them. FAULT has none (R280). -/
def ErrorCause (s : State) : ErrorCode → Prop
  | .illegal => ∃ cw rest, CmdWrite s cw rest ∧ IllegalCause cw
  | .state => ∃ cw i rest, CmdWrite s cw rest ∧ decode cw = .ok i ∧ PhaseRefuses i s.phase
  | .access => ∃ off v strb rest, s.port = .txn (.write off v strb) :: rest ∧
      (off.toNat % 4 ≠ 0 ∨ strb ≠ 0b1111#4 ∨ 0x08 ≤ off.toNat)
  | .lenOvf => ∃ nb rest, CmdWrite s (encode (.feed nb)) rest ∧ s.phase = .absorb ∧ PassesCeiling nb.toNat s
  | .fault => False

/-- What a step does to the error state: nothing, or it records the one error that has its cause, or CLRERR or reset clears
it. -/
inductive ErrorOutcome (s t : State) : Prop where
  | kept (h : SameErrors s t)
  | raised (c : ErrorCode) (info : Word) (hcause : ErrorCause s c) (h : SameErrors (raiseError c info s) t)
  | cleared (rest : List HostEvent) (hcmd : CmdWrite s (encode .clrerr) rest) (h : SameErrors (clearErrors s) t)
  | reset (o : Option Transaction) (rest : List HostEvent) (hp : s.port = .rst o :: rest) (h : SameErrors State.reset t)

/-- A command that runs touches the error state if it is a FEED past the ceiling, or CLRERR, and no other way. -/
theorem effectOf_errors {i : Instr} (s : State) (hw : i.wellFormed = true) :
    SameErrors s (effectOf i s) ∨
    (∃ nb, i = .feed nb ∧ PassesCeiling nb.toNat s ∧ SameErrors (raiseError .lenOvf (encode i) s) (effectOf i s)) ∨
    (i = .clrerr ∧ SameErrors (clearErrors s) (effectOf i s)) := by
  obtain ⟨hillegal, hstate, haccess, hrest⟩ := effectOf_flags i s
  cases i with
  | feed nb =>
    have hlanes : (lanes nb s).length = nb.toNat := length_lanes nb s (of_decide_eq_true hw)
    by_cases hover : PassesCeiling nb.toNat s
    · exact .inr (.inl ⟨nb, rfl, hover, absorb_errors_of_passes _ (hlanes.symm ▸ hover)⟩)
    · exact .inl (absorb_errors_of_not_passes _ (hlanes.symm ▸ hover))
  | clrerr => exact .inr (.inr ⟨rfl, rfl, rfl, rfl, rfl, rfl, rfl⟩)
  | nop | init | finalize | finalizeReset =>
    obtain ⟨hlen, hecode, herrinfo⟩ := hrest (by simp) (by simp)
    exact .inl ⟨by simpa using hillegal, by simpa using hstate, by simpa using haccess, hlen, hecode, herrinfo⟩

theorem step_errors {s t : State} (h : step s = .next t) : ErrorOutcome s t := by
  cases step_cases s t h with
  | idle | read | data => exact .kept ⟨rfl, rfl, rfl, rfl, rfl, rfl⟩
  | reset o rest hp => exact .reset o rest hp ⟨rfl, rfl, rfl, rfl, rfl, rfl⟩
  | refused off v strb rest hp hr =>
    exact .raised .access _ ⟨off, v, strb, rest, hp, (writeAccepted_eq_false_iff off strb).mp hr⟩
      ⟨rfl, rfl, rfl, rfl, rfl, rfl⟩
  | illegal cw rest e hp hd =>
    have hl : legal cw = false := (decodeRejectsExactlyIllegalWords cw).mp ⟨e, hd⟩
    exact .raised .illegal cw ⟨cw, rest, hp, (illegalCause_iff cw).mpr hl⟩ ⟨rfl, rfl, rfl, rfl, rfl, rfl⟩
  | wrongPhase cw i rest hp hd ha =>
    exact .raised .state _ ⟨cw, i, rest, hp, hd, (phaseRefuses_iff i s.phase).mpr ha⟩ ⟨rfl, rfl, rfl, rfl, rfl, rfl⟩
  | command cw i rest hp hd ha =>
    obtain ⟨hw, rfl⟩ := (decode_eq_ok_iff cw i).mp hd
    rcases effectOf_errors { s with port := rest, out := .ackWrite } hw with
      hsame | ⟨nb, rfl, hover, hsame⟩ | ⟨rfl, hsame⟩
    · exact .kept (hsame.after ⟨rfl, rfl, rfl, rfl, rfl, rfl⟩)
    · exact .raised .lenOvf _ ⟨nb, rest, hp, absorb_of_allowed (.inl ⟨nb, rfl⟩) ha, hover⟩
        (hsame.after ⟨rfl, rfl, rfl, rfl, rfl, rfl⟩)
    · exact .cleared rest hp (hsame.after ⟨rfl, rfl, rfl, rfl, rfl, rfl⟩)

/-- The sticky flag of an error; FAULT has none (60_exceptions.md R275). -/
def errorFlag : ErrorCode → State → Bool
  | .illegal, s => s.eIllegal
  | .state, s => s.eState
  | .access, s => s.eAccess
  | .lenOvf, s => s.lenOvf
  | .fault, _ => false

theorem SameErrors.errorFlag {s t : State} (h : SameErrors s t) (c : ErrorCode) : errorFlag c t = errorFlag c s := by
  cases c with
  | illegal => exact h.eIllegal
  | state => exact h.eState
  | access => exact h.eAccess
  | lenOvf => exact h.lenOvf
  | fault => rfl

/-- An error sets its own flag at most (60_exceptions.md R276). -/
theorem errorFlag_raiseError {c d : ErrorCode} (info : Word) (s : State) (hne : c ≠ d) :
    errorFlag c (raiseError d info s) = errorFlag c s := by
  cases c <;> simp [errorFlag, hne.symm]

/-- A step that sets a flag has its error's cause. -/
theorem cause_of_errorFlag {s t : State} (c : ErrorCode) (h : step s = .next t) (h0 : errorFlag c s = false)
    (h1 : errorFlag c t = true) : ErrorCause s c := by
  cases step_errors h with
  | kept hsame => simp [hsame.errorFlag, h0] at h1
  | raised d info hcause hsame =>
    by_cases hcd : c = d
    · exact hcd ▸ hcause
    · simp [hsame.errorFlag, errorFlag_raiseError info s hcd, h0] at h1
  | cleared rest hcmd hsame =>
    rw [hsame.errorFlag] at h1
    cases c <;> cases h1
  | reset o rest hp hsame =>
    rw [hsame.errorFlag] at h1
    cases c <;> cases h1

/-! ### Each error and its causes (60_exceptions.md R271 to R274) -/

/-- Settles O20: the causes are the words that are no command, and such a CMD write only records ILLEGAL. -/
theorem illegalRaisedExactly : Obligations.IllegalRaisedExactly :=
  ⟨fun _ cw _ hcmd hcause => step_illegal hcmd ((illegalCause_iff cw).mp hcause),
    fun _ _ h h0 h1 => cause_of_errorFlag .illegal h h0 h1⟩

/-- Settles O21: a decoded command out of phase only records STATE. -/
theorem stateErrorRaisedExactly : Obligations.StateErrorRaisedExactly := by
  refine ⟨fun s cw i rest hcmd hd hr => ?_, fun s t h h0 h1 => cause_of_errorFlag .state h h0 h1⟩
  rw [(StepCase.wrongPhase cw i rest hcmd hd ((phaseRefuses_iff i s.phase).mp hr)).step_eq, raiseError_state,
    encode_decode cw i hd]

/-- Settles O22: the causes are the writes RegWrite does not accept, and such a write only records ACCESS. -/
theorem accessErrorRaisedExactly : Obligations.AccessErrorRaisedExactly := by
  refine ⟨fun s off v strb rest hp hcause => ?_, fun s t h h0 h1 => cause_of_errorFlag .access h h0 h1⟩
  rw [(StepCase.refused off v strb rest hp ((writeAccepted_eq_false_iff off strb).mpr hcause)).step_eq, raiseError_access,
    accessInfo_eq]

/-- Settles O23: the warning's cause is a FEED past the ceiling, and the warning does not keep it from absorbing. -/
theorem lengthWarningOnlyFromFeed : Obligations.LengthWarningOnlyFromFeed := by
  refine ⟨fun s t h h0 h1 => cause_of_errorFlag .lenOvf h h0 h1, fun nb s hs hnb hover => ?_⟩
  have hlanes : (lanes nb s).length = nb.toNat := length_lanes nb s hnb
  have herr := absorb_errors_of_passes (encode (.feed nb)) (hlanes.symm ▸ hover)
  refine ⟨_, exec_feed hs hnb, ?_, herr.lenOvf.trans (by simp), ?_⟩
  · rw [absorb_eq]
    exact hs
  · rw [absorb_count, hlanes]

/-! ### FAULT (60_exceptions.md R280) -/

/-- Settles O31: of the transitions of R249 none ends in FAULT, and only the reset edge starts there. -/
theorem faultNeverEnteredAndOnlyResetLeavesIt : Obligations.FaultNeverEnteredAndOnlyResetLeavesIt := by
  intro s t h
  rcases phaseTransitions s t h with hsame | ⟨o, rest, hp, ht⟩ | ⟨a, rest, -, hs, ht⟩ | ⟨rest, -, hs, ht⟩
  · exact ⟨fun hs => hsame ▸ hs, fun hf ht => absurd (hsame.trans hf) ht⟩
  · exact ⟨fun _ => by simp [ht], fun _ _ => ⟨o, rest, hp⟩⟩
  · exact ⟨fun _ => by simp [ht], fun hf => absurd hf hs⟩
  · exact ⟨fun _ => by simp [ht], fun hf => by simp [hs] at hf⟩

/-! ### One error a transaction, and the first error (60_exceptions.md R276, R277, R281) -/

/-- Settles O24: the error state changes by one `raise` at most, which sets one flag, and no step enters FAULT. -/
theorem atMostOneErrorPerTransaction : Obligations.AtMostOneErrorPerTransaction := by
  intro s t h
  refine ⟨?_, fun _ ht => by_contra fun hs => (faultNeverEnteredAndOnlyResetLeavesIt s t h).1 hs ht⟩
  cases step_errors h with
  | kept hsame => simp [hsame.eIllegal, hsame.eState, hsame.eAccess, hsame.lenOvf]
  | raised c info hcause hsame =>
    rw [hsame.eIllegal, hsame.eState, hsame.eAccess, hsame.lenOvf]
    cases c with
    | illegal => cases hflag : s.eIllegal <;> simp [hflag]
    | state => cases hflag : s.eState <;> simp [hflag]
    | access => cases hflag : s.eAccess <;> simp [hflag]
    | lenOvf => cases hflag : s.lenOvf <;> simp [hflag]
    | fault => cases hcause
  | cleared rest hcmd hsame => simp [hsame.eIllegal, hsame.eState, hsame.eAccess, hsame.lenOvf]
  | reset o rest hp hsame => simp [hsame.eIllegal, hsame.eState, hsame.eAccess, hsame.lenOvf, State.reset]

/-- Settles O25: a later error leaves ECODE and ERRINFO, and besides errors only CLRERR and reset write them. -/
theorem firstErrorIsKept : Obligations.FirstErrorIsKept := by
  intro s t h hne
  cases step_errors h with
  | kept hsame => exact .inl ⟨hsame.ecode, hsame.errinfo⟩
  | raised c info hcause hsame => exact .inl ⟨hsame.ecode.trans (if_neg hne), hsame.errinfo.trans (if_neg hne)⟩
  | cleared rest hcmd hsame => exact .inr (.inl ⟨rest, hcmd⟩)
  | reset o rest hp hsame => exact .inr (.inr ⟨o, rest, hp⟩)

end Sys2Proof.Machine
end

section
/-! PROOFS. Reset (70_reset_and_hazards.md R300 to R302): what a reset edge leaves, at the transaction level and in any cycle of
the reference sequencer. -/

namespace Sys2Proof.Machine

/-- Of the reset state every offset reads 0 (20_memory.md R66, 70_reset_and_hazards.md R302). -/
theorem regRead_reset (off : BitVec 8) : regRead off State.reset = 0 := by
  have hcount : ∀ i : Fin 4, countWord State.reset i.val = 0 := by decide
  have hdigest : ∀ i : Fin 16, digestWord State.reset i.val = 0 := by decide
  unfold regRead
  simp only
  split_ifs with hmis hcmd hdata hstatus herr hc hd
  · rfl
  · rfl
  · rfl
  · decide
  · rfl
  · exact hcount ⟨(off.toNat - 0x10) / 4, by omega⟩
  · exact hdigest ⟨(off.toNat - 0x20) / 4, by omega⟩
  · rfl

/-- Settles O10: a reset edge answers the reset state with the host's later events. -/
theorem resetEdgeResets : Obligations.ResetEdgeResets := by
  intro s o rest hp
  have hdigest : ∀ i : Fin 64, State.reset.digest[i] = 0 := fun i => Vector.getElem_replicate i.isLt
  exact ⟨_, (StepCase.reset o rest hp).step_eq, rfl, rfl, rfl, rfl, rfl, hdigest, rfl, rfl, rfl, rfl, rfl, rfl, rfl, rfl,
    rfl, rfl, regRead_reset⟩

/-- Settles O57: whatever the sequencer's state, a cycle with rst makes the engine's part a reset edge of the machine. -/
theorem sequencerResetAbandons : Obligations.SequencerResetAbandons := by
  intro q req
  obtain ⟨t, hstep, hvalues⟩ :=
    resetEdgeResets { q.engine with port := .rst none :: q.engine.port } none q.engine.port rfl
  cases hstep
  exact ⟨rfl, hvalues⟩

end Sys2Proof.Machine
end
